-- ==== Sys2Proof/Word.lean ====
section
/-! DEFINITION. The word types of the engine, by the widths of 00_scope.md R8. Every value is unsigned (R9). -/

namespace Sys2Proof

/-- A command word on the command port: `CMD_W` = 16 bits (R8, R70). -/
abbrev CmdWord := BitVec 16

/-- A response word in RSPQ: `RSP_W` = 32 bits (R8, R30). -/
abbrev RspWord := BitVec 32

/-- A value of the PME state CHK: `CHK_W` = 30 bits (R8, R23). -/
abbrev Chk := BitVec 30

/-- A symbol: "a 5-bit unsigned value, the atomic unit of the data payload and checksum" (R12). -/
abbrev Sym := BitVec 5

/-- A byte: an HRP byte, a character code, a BCU input value. -/
abbrev Byte := BitVec 8

end Sys2Proof
end

