-- ==== Sys2Proof/Config.lean ====
section
/-! DEFINITION. What an implementation or a platform fixes (00_scope.md R8; 20_memory.md R57, R67). -/

namespace Sys2Proof

/-- The least legal `RSP_DEPTH` (R8: "integer ≥ 8"). -/
def Config.rspDepthMin : Nat := 8

/-- The default `RSP_DEPTH` (R8: "default 8"), which `State.reset` holds. Log entry 1. -/
def Config.rspDepthDefault : Nat := 8

/-- The two byte orders a bus attachment may have (R57). -/
inductive BusEndian where
  | little
  | big
  deriving DecidableEq, Repr, Inhabited

/-- `BUS_ENDIAN` (R57): OPEN, "No rule of this spec depends on it". It has no body. Log entry 11. -/
opaque Config.busEndian : BusEndian

/-- The three port groups a platform places in an address map (R67). -/
inductive EnginePort where
  | command
  | response
  | status
  deriving DecidableEq, Repr

/-- `PLATFORM_MAP` (R67): where the platform attaches each port. OPEN, no rule reads it. It has no body. Log entry 11. -/
opaque Config.platformMap : EnginePort → Nat

end Sys2Proof
end

