-- ==== Sys2Proof/Machine/State.lean ====
section
/-! DEFINITION. The state of the engine as plain data (10_state.md R20, R33), the pending commands of the command port
(20_memory.md R59, R60), and whose turn it is; the reasons a run can stop; the state after reset. -/

namespace Sys2Proof.Machine

/-- One turn of one of the two agents (R14): the engine takes up its next command, or the host does one of its three actions (R60).
The order of turns is plain data, so every interleaving the spec allows (R62) is the run of some state. Log entry 3. -/
inductive Turn where
  /-- The engine looks at the oldest written command. -/
  | engine
  /-- `WriteCmd(w)`: the host hands over command word `w` (R60). -/
  | writeCmd (w : CmdWord)
  /-- `PopRsp`: the host takes the head of RSPQ (R60). -/
  | popRsp
  /-- `Reset` (R60, R290). -/
  | reset
  deriving DecidableEq, Repr

/-- Everything the spec gives the machine (R20, "exactly the following and nothing else"), and four fields of the two ports and
their agents. RSPQ, the pending commands, the agenda and the popped words are lists, head (oldest) first. -/
structure State where
  /-- CHK, the running polyMod state (R23). -/
  chk : Chk
  /-- ACC, the bit accumulator, stale bits included (R25). -/
  acc : BitVec 15
  /-- CNT, the number of unconsumed bits in ACC (R26). -/
  cnt : BitVec 4
  /-- CFG: FROM in bits 3:0, TO in bits 7:4 (R24). -/
  cfg : BitVec 8
  /-- STATUS: VOK bit 0, ERRL bit 1, reserved bits 3:2, ECODE bits 7:4 (R27). -/
  status : BitVec 8
  /-- ECMD, the command word that set the error latch (R29). -/
  ecmd : CmdWord
  /-- RSPQ, the response FIFO (R30). -/
  rspq : List RspWord
  /-- The parameter `RSP_DEPTH` (R8), an argument of the model: nothing changes it. Log entry 1. -/
  rspDepth : Nat
  /-- The commands the host has written and the engine has not completed (R59, R60, R290). Log entry 2. -/
  cmds : List CmdWord
  /-- Whose turn it is, and then whose; empty, it is the engine's. The model's own field, log entry 3. -/
  agenda : List Turn
  /-- The words `PopRsp` has returned to the host (R60). The model's own field, log entry 5. -/
  popped : List RspWord
  deriving DecidableEq, Repr

/-- The state after reset (R33): CHK = 1, CFG = 0x58, every other register 0, RSPQ empty, no command pending (R290).
The last three fields and the depth are log entries 1 and 23. -/
def State.reset : State where
  chk := 1
  acc := 0
  cnt := 0
  cfg := 0x58
  status := 0x00
  ecmd := 0x0000
  rspq := []
  rspDepth := Config.rspDepthDefault
  cmds := []
  agenda := []
  popped := []

/-- Why a run stops with a fault. The engine itself never faults: its errors are latched (R260, R263) and a command that waits for
RSPQ space is stuck, not faulted (R59). -/
inductive Fault where
  /-- ILLEGAL_CMD during a host procedure: "it is a host fault: the host returns no result, and the model records a fault" (R214).
  Raised by the host procedures of Machine/HostCodec.lean only, never by `step` or `exec`. Safe: a run that stops here proves nothing. -/
  | hostIllegalCmd
  deriving DecidableEq, Repr

/-- Why an instruction has no meaning. Every command of the table has one, so nothing raises this. -/
inductive Refusal where
  /-- An instruction of the table that the model gives no meaning. Raised by no arm of `exec`; safe. -/
  | notModelled (mnemonic : String)
  deriving DecidableEq, Repr

/-- The three outcomes of a step of this machine. -/
abbrev Result := Host.Outcome State Fault Refusal

end Sys2Proof.Machine
end

