-- ==== Sys2Proof/Machine/Flags.lean ====
section
/-! DEFINITION. The fields of STATUS and every change of them (10_state.md R27, R28; 60_exceptions.md R261). STATUS is never written
as a whole: each function below changes its own field and leaves the others, the reserved bits 3:2 among them. -/

namespace Sys2Proof.Machine

/-- The engine's three errors (R261). -/
inductive EngineError where
  | illegalCmd
  | invalidValue
  | invalidPadding
  deriving DecidableEq, Repr

/-- The code an error leaves in ECODE (R261). -/
def EngineError.code : EngineError → BitVec 4
  | .illegalCmd => 1
  | .invalidValue => 2
  | .invalidPadding => 3

/-- STATUS with VOK (bit 0) written (R146). -/
def statusWithVok (st : BitVec 8) (vok : Bool) : BitVec 8 := (st &&& 0xFE) ||| (if vok then 0x01 else 0x00)

/-- STATUS after an error: ERRL <- 1, ECODE <- code (R263). -/
def statusWithError (st : BitVec 8) (code : BitVec 4) : BitVec 8 := (st &&& 0x0D) ||| 0x02 ||| (code.setWidth 8 <<< 4)

/-- STATUS after CLRERR: ERRL <- 0, ECODE <- 0 (R194). -/
def statusCleared (st : BitVec 8) : BitVec 8 := st &&& 0x0D

/-- STATUS.VOK (R27). -/
def State.vok (s : State) : Bool := s.status.getLsbD 0

/-- STATUS.ERRL, the error latch (R27). -/
def State.errl (s : State) : Bool := s.status.getLsbD 1

/-- STATUS.ECODE (R27). -/
def State.ecode (s : State) : BitVec 4 := s.status.extractLsb' 4 4

/-- The reserved bits STATUS[3:2] (R27). -/
def State.statusReserved (s : State) : BitVec 2 := s.status.extractLsb' 2 2

/-- The condition PM_VFY computes: CHK == M (R146). -/
def verifies (c target : Chk) : Bool := c == target

end Sys2Proof.Machine
end

