-- ==== Sys2Proof/Syntax.lean ====
section
/-! DEFINITION. The commands as syntax: one constructor per row of spec/opcode_table.json (30_encoding.md R74). -/

namespace Sys2Proof

/-- The registers RD can name, in the order of their indexes 0 to 5 (R20, R192). -/
inductive RdReg where
  | chk
  | acc
  | cnt
  | cfg
  | status
  | ecmd
  deriving DecidableEq, Repr

/-- The fifteen commands (R74) with their operands as R72 assembles them. -/
inductive Instr where
  /-- NOP (R190). -/
  | nop
  /-- PM_INIT (R133). -/
  | pmInit
  /-- PM_SYM s (R134). -/
  | pmSym (s : Sym)
  /-- PM_HRPH b (R136). -/
  | pmHrph (b : Byte)
  /-- PM_HRPL b (R138). -/
  | pmHrpl (b : Byte)
  /-- PM_FIN (R142). -/
  | pmFin
  /-- PM_VFY (R146). -/
  | pmVfy
  /-- CV_CFG f, t (R101): `f` the input width, `t` the output width. -/
  | cvCfg (f t : BitVec 4)
  /-- CV_PUSH v (R102). -/
  | cvPush (v : Byte)
  /-- CV_FLUSH p (R104): `p` is D0's `pad`. -/
  | cvFlush (p : Bool)
  /-- CS_FWD s (R171). -/
  | csFwd (s : Sym)
  /-- CS_REV b (R173). -/
  | csRev (b : Byte)
  /-- RD r (R192). -/
  | rd (r : RdReg)
  /-- CLRERR (R194). -/
  | clrerr
  /-- SRST (R196). -/
  | srst
  deriving DecidableEq, Repr

end Sys2Proof
end

