-- ==== Sys2Proof/WellFormed.lean ====
section
/-! DEFINITION. Which terms of `Instr` are commands: the constraints of R74 that the types of the operands do not already carry. -/

namespace Sys2Proof

/-- A legal BCU width: 1 to 8 (R24, R72). -/
def legalWidth (w : BitVec 4) : Bool := decide (1 ≤ w.toNat) && decide (w.toNat ≤ 8)

/-- The constraint column of R74. Only CV_CFG has one beyond its operand types (RD's r ≤ 5 is the type `RdReg`). -/
def Instr.wellFormed : Instr → Bool
  | .nop => true
  | .pmInit => true
  | .pmSym _ => true
  | .pmHrph _ => true
  | .pmHrpl _ => true
  | .pmFin => true
  | .pmVfy => true
  | .cvCfg f t => legalWidth f && legalWidth t
  | .cvPush _ => true
  | .cvFlush _ => true
  | .csFwd _ => true
  | .csRev _ => true
  | .rd _ => true
  | .clrerr => true
  | .srst => true

end Sys2Proof
end

