-- ==== Sys2Proof/Decode.lean ====
section
/-! DEFINITION. The decoder of 30_encoding.md R74 to R76, total on every 16-bit word and rejecting by name; after it the encoder
of R71 and R72, and the opcode table's rows as data. -/

namespace Sys2Proof

/-- Why a word is illegal (R76). -/
inductive Illegal where
  /-- R76 (a): OP = 0xF. -/
  | reservedOpcode
  /-- R76 (b): an unused bit is not zero. -/
  | unusedBits
  /-- R76 (c): CV_CFG with f or t outside 1 to 8. -/
  | cfgWidth
  /-- R76 (d): RD with r ≥ 6. -/
  | rdIndex
  deriving DecidableEq, Repr

/-- What a word decodes to. -/
inductive Decoded where
  | command (i : Instr)
  | illegal (why : Illegal)
  deriving DecidableEq, Repr

/-- OP = word[15:12] (R71). -/
def opField (w : CmdWord) : BitVec 4 := w.extractLsb' 12 4

/-- X = word[11:8] (R71). -/
def xField (w : CmdWord) : BitVec 4 := w.extractLsb' 8 4

/-- IMM = word[7:0] (R71). -/
def immField (w : CmdWord) : Byte := w.extractLsb' 0 8

/-- The register an index names; indexes 6 to 15 name none (R20, R76 d). -/
def RdReg.ofIndex (r : BitVec 4) : Option RdReg :=
  match r.toNat with
  | 0 => some .chk
  | 1 => some .acc
  | 2 => some .cnt
  | 3 => some .cfg
  | 4 => some .status
  | 5 => some .ecmd
  | _ => none

/-- The word is a row's command only if `word & mask == match` (R74); else some unused bit is set (R76 b). -/
def decodeRow (w mask pattern : CmdWord) (d : Decoded) : Decoded :=
  if w &&& mask = pattern then d else .illegal .unusedBits

/-- The decoder (R75): OP = 0xF is illegal, otherwise OP's row is the only candidate, and its mask, match and constraint decide. -/
def decode (w : CmdWord) : Decoded :=
  match (opField w).toNat with
  | 0x0 => decodeRow w 0xFFFF 0x0000 (.command .nop)
  | 0x1 => decodeRow w 0xFFFF 0x1000 (.command .pmInit)
  | 0x2 => decodeRow w 0xFFE0 0x2000 (.command (.pmSym (w.extractLsb' 0 5)))
  | 0x3 => decodeRow w 0xFF00 0x3000 (.command (.pmHrph (immField w)))
  | 0x4 => decodeRow w 0xFF00 0x4000 (.command (.pmHrpl (immField w)))
  | 0x5 => decodeRow w 0xFFFF 0x5000 (.command .pmFin)
  | 0x6 => decodeRow w 0xFFFF 0x6000 (.command .pmVfy)
  | 0x7 => decodeRow w 0xFF00 0x7000
      (let f := w.extractLsb' 0 4
       let t := w.extractLsb' 4 4
       if legalWidth f && legalWidth t then .command (.cvCfg f t) else .illegal .cfgWidth)
  | 0x8 => decodeRow w 0xFF00 0x8000 (.command (.cvPush (immField w)))
  | 0x9 => decodeRow w 0xFEFF 0x9000 (.command (.cvFlush (w.getLsbD 8)))
  | 0xA => decodeRow w 0xFFE0 0xA000 (.command (.csFwd (w.extractLsb' 0 5)))
  | 0xB => decodeRow w 0xFF00 0xB000 (.command (.csRev (immField w)))
  | 0xC => decodeRow w 0xF0FF 0xC000
      (match RdReg.ofIndex (xField w) with
       | some r => .command (.rd r)
       | none => .illegal .rdIndex)
  | 0xD => decodeRow w 0xFFFF 0xD000 (.command .clrerr)
  | 0xE => decodeRow w 0xFFFF 0xE000 (.command .srst)
  | _ => .illegal .reservedOpcode

/-- The instruction of a decoded word, none where the decoder refuses. -/
def Decoded.instr? : Decoded → Option Instr
  | .command i => some i
  | .illegal _ => none

/-- The host's reading of a row of the opcode table: every row is one 16-bit word (R70), so the bits below `nbits` are the word. -/
def decodeTableWord (nbits w : Nat) : Option Instr := (decode (BitVec.ofNat 16 (w % 2 ^ nbits))).instr?

/-- A command word from its three fields OP, X, IMM (R71). -/
def cmdWord (op x : BitVec 4) (imm : Byte) : CmdWord := op ++ x ++ imm

/-- The index that names a register (R20). -/
def RdReg.index : RdReg → BitVec 4
  | .chk => 0
  | .acc => 1
  | .cnt => 2
  | .cfg => 3
  | .status => 4
  | .ecmd => 5

/-- The encoder: each command's OP (R74) with its operands in the fields of R72, every unused bit zero. -/
def encode : Instr → CmdWord
  | .nop => cmdWord 0x0 0 0
  | .pmInit => cmdWord 0x1 0 0
  | .pmSym s => cmdWord 0x2 0 (s.setWidth 8)
  | .pmHrph b => cmdWord 0x3 0 b
  | .pmHrpl b => cmdWord 0x4 0 b
  | .pmFin => cmdWord 0x5 0 0
  | .pmVfy => cmdWord 0x6 0 0
  | .cvCfg f t => cmdWord 0x7 0 (t ++ f)
  | .cvPush v => cmdWord 0x8 0 v
  | .cvFlush p => cmdWord 0x9 (if p then 1 else 0) 0
  | .csFwd s => cmdWord 0xA 0 (s.setWidth 8)
  | .csRev b => cmdWord 0xB 0 b
  | .rd r => cmdWord 0xC r.index 0
  | .clrerr => cmdWord 0xD 0 0
  | .srst => cmdWord 0xE 0 0

/-- One row of the opcode map (R74): its match and its mask. -/
structure OpcodeRow where
  pattern : CmdWord
  mask : CmdWord
  deriving DecidableEq, Repr

/-- The row of R74 that an instruction stands in. -/
def Instr.row : Instr → OpcodeRow
  | .nop => ⟨0x0000, 0xFFFF⟩
  | .pmInit => ⟨0x1000, 0xFFFF⟩
  | .pmSym _ => ⟨0x2000, 0xFFE0⟩
  | .pmHrph _ => ⟨0x3000, 0xFF00⟩
  | .pmHrpl _ => ⟨0x4000, 0xFF00⟩
  | .pmFin => ⟨0x5000, 0xFFFF⟩
  | .pmVfy => ⟨0x6000, 0xFFFF⟩
  | .cvCfg _ _ => ⟨0x7000, 0xFF00⟩
  | .cvPush _ => ⟨0x8000, 0xFF00⟩
  | .cvFlush _ => ⟨0x9000, 0xFEFF⟩
  | .csFwd _ => ⟨0xA000, 0xFFE0⟩
  | .csRev _ => ⟨0xB000, 0xFF00⟩
  | .rd _ => ⟨0xC000, 0xF0FF⟩
  | .clrerr => ⟨0xD000, 0xFFFF⟩
  | .srst => ⟨0xE000, 0xFFFF⟩

/-- The sixteen rows of R74, OP = 0xF among them, in opcode order. -/
def opcodeRows : List OpcodeRow :=
  [⟨0x0000, 0xFFFF⟩, ⟨0x1000, 0xFFFF⟩, ⟨0x2000, 0xFFE0⟩, ⟨0x3000, 0xFF00⟩,
   ⟨0x4000, 0xFF00⟩, ⟨0x5000, 0xFFFF⟩, ⟨0x6000, 0xFFFF⟩, ⟨0x7000, 0xFF00⟩,
   ⟨0x8000, 0xFF00⟩, ⟨0x9000, 0xFEFF⟩, ⟨0xA000, 0xFFE0⟩, ⟨0xB000, 0xFF00⟩,
   ⟨0xC000, 0xF0FF⟩, ⟨0xD000, 0xFFFF⟩, ⟨0xE000, 0xFFFF⟩, ⟨0xF000, 0xF000⟩]

end Sys2Proof
end

