-- ==== Sys2Proof/Machine/Operands.lean ====
section
/-! DEFINITION. What an operand stands for when a command executes: the BCU widths held in CFG (10_state.md R24), the two halves of an
HRP byte (42_checksum.md R136, R138), and the register an RD reads (44_control.md R192). Every operand is unsigned and zero-extended
(30_encoding.md R72). -/

namespace Sys2Proof.Machine

/-- FROM = CFG[3:0], the width of an input value (R24). -/
def State.fromW (s : State) : Nat := (s.cfg.extractLsb' 0 4).toNat

/-- TO = CFG[7:4], the width of an output value (R24). -/
def State.toW (s : State) : Nat := (s.cfg.extractLsb' 4 4).toNat

/-- The CFG word of the widths `f` and `t`: `(t << 4) | f` (R101). -/
def cfgOf (f t : BitVec 4) : BitVec 8 := t ++ f

/-- `b >> 5`, zero-extended to 5 bits: the value PM_HRPH feeds (R136). -/
def hrpHigh (b : Byte) : Sym := (b >>> 5).setWidth 5

/-- `b & 31`: the value PM_HRPL feeds (R138). -/
def hrpLow (b : Byte) : Sym := (b &&& 31).setWidth 5

/-- The value RD r pushes, zero-extended to 32 bits (R192). ACC is read with its stale bits (R25); the reserved bits STATUS[3:2] read as 0
(R27). -/
def State.readReg (s : State) (r : RdReg) : RspWord :=
  match r with
  | .chk => s.chk.setWidth 32
  | .acc => s.acc.setWidth 32
  | .cnt => s.cnt.setWidth 32
  | .cfg => s.cfg.setWidth 32
  | .status => (s.status &&& 0xF3).setWidth 32
  | .ecmd => s.ecmd.setWidth 32

end Sys2Proof.Machine
end

