-- ==== Sys2Proof/Machine/Tables.lean ====
section
/-! DEFINITION. The engine's constant tables (20_memory.md R51 to R54) and the start value of CHK (00_scope.md R8). No command
writes them (R55). -/

namespace Sys2Proof.Machine

/-- `CHK_INIT` = 1 (R8, R132). -/
def chkInit : Chk := 1

/-- M = 0x2BC830A3, the bech32m target constant (R54). -/
def targetM : Chk := 0x2BC830A3

/-- GEN[0..4] in D0's order (R53). -/
def genTable : List Chk := [0x3b6a57b2, 0x26508e6d, 0x1ea119fa, 0x3d4233dd, 0x2a1462b3]

/-- GEN[i] (R53); i is 0 to 4. -/
def genConst (i : Nat) : Chk := genTable.getD i 0

/-- ROM_FWD in index order: the ASCII codes of `qpzry9x8gf2tvdw0s3jn54khce6mua7l` (R51). -/
def romFwdTable : List Byte :=
  [0x71, 0x70, 0x7A, 0x72, 0x79, 0x39, 0x78, 0x38, 0x67, 0x66, 0x32, 0x74, 0x76, 0x64, 0x77, 0x30,
   0x73, 0x33, 0x6A, 0x6E, 0x35, 0x34, 0x6B, 0x68, 0x63, 0x65, 0x36, 0x6D, 0x75, 0x61, 0x37, 0x6C]

/-- ROM_FWD[s] (R51). The table has 32 entries and `s` is 0 to 31, so the default is never read. -/
def romFwd (s : Sym) : Byte := romFwdTable.getD s.toNat 0

/-- The 32 valid entries of ROM_REV, by byte value (R52). -/
def romRevTable : List (Byte × Byte) :=
  [(0x30, 15), (0x32, 10), (0x33, 17), (0x34, 21), (0x35, 20), (0x36, 26), (0x37, 30), (0x38, 7),
   (0x39, 5), (0x61, 29), (0x63, 24), (0x64, 13), (0x65, 25), (0x66, 9), (0x67, 8), (0x68, 23),
   (0x6A, 18), (0x6B, 22), (0x6C, 31), (0x6D, 27), (0x6E, 19), (0x70, 1), (0x71, 0), (0x72, 3),
   (0x73, 16), (0x74, 11), (0x75, 28), (0x76, 12), (0x77, 14), (0x78, 6), (0x79, 4), (0x7A, 2)]

/-- The invalid sentinel of ROM_REV (R52). -/
def invalidSentinel : Byte := 0xFF

/-- ROM_REV[c] (R52): the valid entry of `c`, else the sentinel. -/
def romRev (c : Byte) : Byte :=
  match romRevTable.find? (fun e => e.1 == c) with
  | some e => e.2
  | none => invalidSentinel

end Sys2Proof.Machine
end

