-- ==== Sys2Proof/Machine/Ops.lean ====
section
/-! DEFINITION. The operations every command is made of: completing a command (20_memory.md R58, R59), dropping one and entering and
leaving an error (60_exceptions.md R263, R266, R268), reset (70_reset_and_hazards.md R290), the host's actions (20_memory.md R60), and
the push count of 30_encoding.md R79. -/

namespace Sys2Proof.Machine

/-! ### One command of the engine -/

/-- The command at the head of the command port is done with: it is no longer pending. -/
def State.retire (s : State) : State := { s with cmds := s.cmds.tail }

/-- `push` of each word in turn, at the tail of RSPQ (R30). -/
def State.pushAll (s : State) (ws : List RspWord) : State := { s with rspq := s.rspq ++ ws }

/-- Whether a command that pushes `k` words executes now: a command that pushes nothing never waits, another needs
`len(RSPQ) + k ≤ RSP_DEPTH` (R59). -/
def State.hasRoom (s : State) (k : Nat) : Bool := k == 0 || decide (s.rspq.length + k ≤ s.rspDepth)

/-- Complete a command as one atomic transition (R58): its register writes `write` and its pushes `ws` together, once the words fit.
Until then the command waits (R59): nothing changes, and it stays pending. Log entry 6. -/
def State.commit (s : State) (ws : List RspWord) (write : State → State) : Result :=
  if s.hasRoom ws.length then .next ((write s).pushAll ws).retire else .next s

/-- Run `k` unless the error latch is set; while it is, the command is dropped: accepted, with no effect and no push (R266). -/
def State.unlessLatched (s : State) (k : State → Result) : Result :=
  if s.errl then .next s.retire else k s

/-- TAKING AN ERROR (R263): ERRL <- 1, ECODE <- code(E), ECMD <- the command word, and nothing else. The command is done with. -/
def State.raise (s : State) (e : EngineError) (w : CmdWord) : State :=
  { s with status := statusWithError s.status e.code, ecmd := w }.retire

/-- RETURN FROM AN ERROR by CLRERR (R194, R268): ERRL, ECODE and ECMD cleared, nothing restored. -/
def State.clearError (s : State) : State := { s with status := statusCleared s.status, ecmd := 0 }

/-- Every piece of the engine's state takes its value of R33 (SRST, R196; and part of reset, R290). RSP_DEPTH is a parameter, and the
pending commands, the agenda and the popped words are not the engine's registers. -/
def State.clearEngine (s : State) : State :=
  { s with
    chk := chkInit, acc := 0, cnt := 0, cfg := 0x58, status := 0x00, ecmd := 0x0000, rspq := [] }

/-- An illegal word (R76, R77, R264): ILLEGAL_CMD, or dropped while the latch is set. -/
def execIllegal (w : CmdWord) (s : State) : Result :=
  s.unlessLatched fun s => .next (s.raise .illegalCmd w)

/-! ### The host's actions (R60) -/

/-- `WriteCmd(w)`: the word joins the written commands, which the engine takes in order (R60, R63). -/
def State.hostWrite (s : State) (w : CmdWord) : State := { s with cmds := s.cmds ++ [w] }

/-- `PopRsp`: removes the head of RSPQ and returns it to the host. With RSPQ empty `rsp_valid` is 0 and nothing transfers (R60). -/
def State.hostPop (s : State) : State :=
  match s.rspq with
  | [] => s
  | w :: ws => { s with rspq := ws, popped := s.popped ++ [w] }

/-- `Reset`: the state of R33, RSPQ emptied, and any pending command abandoned with no effect (R290). -/
def State.hostReset (s : State) : State := { s.clearEngine with cmds := [] }

/-! ### The push count of a command word (R79) -/

/-- Whether a legal command executes while the error latch is set: NOP, RD, CLRERR and SRST do (R266). -/
def runsWhileLatched : Instr → Bool
  | .nop => true
  | .pmInit => false
  | .pmSym _ => false
  | .pmHrph _ => false
  | .pmHrpl _ => false
  | .pmFin => false
  | .pmVfy => false
  | .cvCfg _ _ => false
  | .cvPush _ => false
  | .cvFlush _ => false
  | .csFwd _ => false
  | .csRev _ => false
  | .rd _ => true
  | .clrerr => true
  | .srst => true

/-- k of a legal command that is not dropped, row by row of R79. -/
def State.pushesOf (s : State) : Instr → Nat
  | .nop => 0
  | .pmInit => 0
  | .pmSym _ => 0
  | .pmHrph _ => 0
  | .pmHrpl _ => 0
  | .pmFin => 6
  | .pmVfy => 1
  | .cvCfg _ _ => 0
  | .cvPush v => if 2 ^ s.fromW ≤ v.toNat then 0 else (s.cnt.toNat + s.fromW) / s.toW
  | .cvFlush p => if p && decide (0 < s.cnt.toNat) then 1 else 0
  | .csFwd _ => 1
  | .csRev _ => 1
  | .rd _ => 1
  | .clrerr => 0
  | .srst => 0

/-- k(w, state) of R79, which R59 compares with the free space of RSPQ: 0 for an illegal word and for a dropped one. -/
def State.pushCount (s : State) (w : CmdWord) : Nat :=
  match decode w with
  | .illegal _ => 0
  | .command i => if s.errl && !runsWhileLatched i then 0 else s.pushesOf i

/-! ### The port outputs (R60, R61) -/

/-- The engine's outputs to the host (R60). -/
structure Ports where
  cmdReady : Bool
  rspValid : Bool
  rspData : Option RspWord
  stsVok : Bool
  stsErrl : Bool
  stsEcode : BitVec 4
  deriving DecidableEq, Repr

/-- The engine takes the command the host offers: it does unless that command waits for RSPQ space (R59). An implementation that is
still busy may hold the signal low longer (R296); this model has no cycles. Log entry 7. -/
def State.cmdReady (s : State) : Bool :=
  match s.cmds with
  | [] => true
  | w :: _ => s.hasRoom (s.pushCount w)

/-- The outputs in state `s`, with `rst_n` at `rstN`. While reset is asserted no command is accepted and no response offered (R290);
the status outputs show STATUS at all times (R61). -/
def State.ports (s : State) (rstN : Bool) : Ports where
  cmdReady := rstN && s.cmdReady
  rspValid := rstN && !s.rspq.isEmpty
  rspData := if rstN then s.rspq.head? else none
  stsVok := s.vok
  stsErrl := s.errl
  stsEcode := s.ecode

end Sys2Proof.Machine
end

