-- ==== Sys2Proof/Machine/BitConv.lean ====
section
/-! DEFINITION. The bit-width converter, BCU (41_bitconv.md): CV_CFG, CV_PUSH, CV_FLUSH. Shifts are computed on natural numbers and cut
by a mask, as R9 and R107 describe. -/

namespace Sys2Proof.Machine

/-- `mask_n = 2^n − 1` (R9). -/
def maskBits (n : Nat) : Nat := 2 ^ n - 1

/-- The accumulator after a value is shifted in: `((ACC << FROM) | v) & maxacc` (R102). -/
def shiftIn (fromW toW acc v : Nat) : Nat := ((acc <<< fromW) ||| v) &&& maskBits (fromW + toW - 1)

/-- The words of R102's loop `while cnt >= TO: cnt <- cnt - TO; push((acc >> cnt) & maxv)`, in push order. `fuel` bounds the number
of rounds; `cnt` rounds always suffice when TO ≥ 1. Log entry 10. -/
def emitWords (toW acc : Nat) : (fuel cnt : Nat) → List Nat
  | 0, _ => []
  | fuel + 1, cnt =>
    if toW ≤ cnt then ((acc >>> (cnt - toW)) &&& maskBits toW) :: emitWords toW acc fuel (cnt - toW) else []

/-- The counter when R102's loop ends. -/
def emitRest (toW : Nat) : (fuel cnt : Nat) → Nat
  | 0, cnt => cnt
  | fuel + 1, cnt => if toW ≤ cnt then emitRest toW fuel (cnt - toW) else cnt

/-- The residual bits at the top of an output value: `(ACC << (TO - CNT)) & maxv` (R104). -/
def residue (toW acc cnt : Nat) : Nat := (acc <<< (toW - cnt)) &&& maskBits toW

/-- CV_CFG f, t (R101): sets the widths and starts a conversion. A width outside 1 to 8 is ILLEGAL_CMD; the decoder never hands such a
term over, since its word is illegal (R76 c). Log entry 12. -/
def execCvCfg (f t : BitVec 4) (s : State) : Result :=
  s.unlessLatched fun s =>
    if legalWidth f && legalWidth t then
      s.commit [] fun s => { s with cfg := cfgOf f t, acc := 0, cnt := 0 }
    else .next (s.raise .illegalCmd (encode (.cvCfg f t)))

/-- CV_PUSH v (R102): INVALID_VALUE if v ≥ 2^FROM; else v is shifted in and every full group of TO bits is pushed. -/
def execCvPush (v : Byte) (s : State) : Result :=
  s.unlessLatched fun s =>
    if 2 ^ s.fromW ≤ v.toNat then .next (s.raise .invalidValue (encode (.cvPush v)))
    else
      let acc := shiftIn s.fromW s.toW s.acc.toNat v.toNat
      let cnt := s.cnt.toNat + s.fromW
      let rest := emitRest s.toW cnt cnt
      s.commit ((emitWords s.toW acc cnt cnt).map fun x => BitVec.ofNat 32 x) fun s =>
        { s with acc := BitVec.ofNat 15 acc, cnt := BitVec.ofNat 4 rest }

/-- CV_FLUSH p (R104): with p = 1 a residue is pushed, filled with zeros; with p = 0 a residue of FROM bits or more, or one that is not
zero, is INVALID_PADDING. On success ACC and CNT are cleared. -/
def execCvFlush (p : Bool) (s : State) : Result :=
  s.unlessLatched fun s =>
    let rest := residue s.toW s.acc.toNat s.cnt.toNat
    if p then
      s.commit (if 0 < s.cnt.toNat then [BitVec.ofNat 32 rest] else []) fun s => { s with acc := 0, cnt := 0 }
    else if s.fromW ≤ s.cnt.toNat ∨ rest ≠ 0 then
      .next (s.raise .invalidPadding (encode (.cvFlush p)))
    else s.commit [] fun s => { s with acc := 0, cnt := 0 }

end Sys2Proof.Machine
end

