-- ==== Sys2Proof/Machine/Charset.lean ====
section
/-! DEFINITION. The character-set LUT mapper (43_charset.md): CS_FWD and CS_REV. They read one ROM entry, push it and write no register
(R170). -/

namespace Sys2Proof.Machine

/-- CS_FWD s (R171): pushes ROM_FWD[s]. -/
def execCsFwd (v : Sym) (s : State) : Result :=
  s.unlessLatched fun s => s.commit [(romFwd v).setWidth 32] id

/-- CS_REV b (R173): pushes ROM_REV[b], the invalid sentinel for a byte outside the alphabet; no error (R262). -/
def execCsRev (b : Byte) (s : State) : Result :=
  s.unlessLatched fun s => s.commit [(romRev b).setWidth 32] id

end Sys2Proof.Machine
end

