-- ==== Sys2Proof/Machine/Checksum.lean ====
section
/-! DEFINITION. The BCH checksum polynomial engine, PME (42_checksum.md): the step function and the six PM commands. -/

namespace Sys2Proof.Machine

/-- `step(c, v)` (R131): the five syndrome bits c[29:25] are read, c[24:0] moves up by 5, v fills bits 4:0, and each set syndrome
bit i adds GEN[i]. -/
def polyStep (c : Chk) (v : Sym) : Chk :=
  let b : BitVec 5 := c.extractLsb' 25 5
  let shifted : Chk := ((c.extractLsb' 0 25).setWidth 30 <<< 5) ^^^ v.setWidth 30
  (List.range 5).foldl (fun c i => if b.getLsbD i then c ^^^ genConst i else c) shifted

/-- One step per value, in order (R132). -/
def polyFeed (c : Chk) (vs : List Sym) : Chk := vs.foldl polyStep c

/-- The six symbols of a 30-bit checksum: `sym_i = c[29−5i : 25−5i]`, most significant first (R143). -/
def checksumSymbols (c : Chk) : List Sym := (List.range 6).map fun i => c.extractLsb' (25 - 5 * i) 5

/-- What PM_FIN leaves in CHK: six zero steps, then XOR M (R142). -/
def finalChecksum (c : Chk) : Chk := polyFeed c (List.replicate 6 0) ^^^ targetM

/-- CHK <- step(CHK, v): the shared body of PM_SYM, PM_HRPH and PM_HRPL. -/
def State.feed (s : State) (v : Sym) : Result :=
  s.unlessLatched fun s => s.commit [] fun s => { s with chk := polyStep s.chk v }

/-- PM_INIT (R133): CHK <- 1. -/
def execPmInit (s : State) : Result :=
  s.unlessLatched fun s => s.commit [] fun s => { s with chk := chkInit }

/-- PM_SYM s (R134). -/
def execPmSym (v : Sym) (s : State) : Result := s.feed v

/-- PM_HRPH b (R136): feeds `b >> 5`. -/
def execPmHrph (b : Byte) (s : State) : Result := s.feed (hrpHigh b)

/-- PM_HRPL b (R138): feeds `b & 31`. -/
def execPmHrpl (b : Byte) (s : State) : Result := s.feed (hrpLow b)

/-- PM_FIN (R142): CHK <- the checksum, and its six symbols are pushed. -/
def execPmFin (s : State) : Result :=
  s.unlessLatched fun s =>
    let c := finalChecksum s.chk
    s.commit ((checksumSymbols c).map fun v => v.setWidth 32) fun s => { s with chk := c }

/-- PM_VFY (R146): VOK <- (CHK == M), and VOK is pushed. -/
def execPmVfy (s : State) : Result :=
  s.unlessLatched fun s =>
    let ok := verifies s.chk targetM
    s.commit [if ok then 1 else 0] fun s => { s with status := statusWithVok s.status ok }

end Sys2Proof.Machine
end

