-- ==== Sys2Proof/Machine/Control.lean ====
section
/-! DEFINITION. The engine control commands (44_control.md): NOP, RD, CLRERR, SRST. All four execute while the error latch is set (R266)
and need no privilege (R272). -/

namespace Sys2Proof.Machine

/-- NOP (R190): no effect. -/
def execNop (s : State) : Result := s.commit [] id

/-- RD r (R192): pushes the register, zero-extended; no register changes. -/
def execRd (r : RdReg) (s : State) : Result := s.commit [s.readReg r] id

/-- CLRERR (R194): ERRL, ECODE and ECMD cleared. -/
def execClrerr (s : State) : Result := s.commit [] State.clearError

/-- SRST (R196): every piece of state takes its value of R33; words still in RSPQ are discarded. Later written commands stay written:
it runs in command order (R292). -/
def execSrst (s : State) : Result := s.commit [] State.clearEngine

end Sys2Proof.Machine
end

