-- ==== Sys2Proof/Machine/Dispatch.lean ====
section
/-! DEFINITION. One arm per command (30_encoding.md R74): each calls its meaning. -/

namespace Sys2Proof.Machine

def exec (i : Instr) (s : State) : Host.Outcome State Fault Refusal :=
  match i with
  | .nop => Sys2Proof.Machine.execNop s
  | .pmInit => Sys2Proof.Machine.execPmInit s
  | .pmSym v => Sys2Proof.Machine.execPmSym v s
  | .pmHrph b => Sys2Proof.Machine.execPmHrph b s
  | .pmHrpl b => Sys2Proof.Machine.execPmHrpl b s
  | .pmFin => Sys2Proof.Machine.execPmFin s
  | .pmVfy => Sys2Proof.Machine.execPmVfy s
  | .cvCfg f t => Sys2Proof.Machine.execCvCfg f t s
  | .cvPush v => Sys2Proof.Machine.execCvPush v s
  | .cvFlush p => Sys2Proof.Machine.execCvFlush p s
  | .csFwd v => Sys2Proof.Machine.execCsFwd v s
  | .csRev b => Sys2Proof.Machine.execCsRev b s
  | .rd r => Sys2Proof.Machine.execRd r s
  | .clrerr => Sys2Proof.Machine.execClrerr s
  | .srst => Sys2Proof.Machine.execSrst s

end Sys2Proof.Machine
end

