-- ==== Sys2Proof/Machine/Engine.lean ====
section
/-! DEFINITION. The engine's turn: it looks at the oldest written command and decodes it, and its meaning runs (20_memory.md R59, R60,
R63). Fetching is reading the head of the command port: the engine fetches nothing from memory (R65). -/

namespace Sys2Proof.Machine

/-- The word `w` at the head of the command port: a legal word runs its command, an illegal one R76. -/
def runWord (w : CmdWord) (s : State) : Result :=
  match decode w with
  | .command i => exec i s
  | .illegal _ => execIllegal w s

/-- The engine's turn: the oldest written command, or nothing when none is pending (R277: the engine holds its state). -/
def engineTurn (s : State) : Result :=
  match s.cmds with
  | [] => .next s
  | w :: _ => runWord w s

/-- One turn of one agent. -/
def takeTurn (t : Turn) (s : State) : Result :=
  match t with
  | .engine => engineTurn s
  | .writeCmd w => .next (s.hostWrite w)
  | .popRsp => .next s.hostPop
  | .reset => .next s.hostReset

/-- The turn at the head of the agenda is taken off it and runs; with nothing on the agenda it is the engine's turn. Log entry 3. -/
def nextTurn (s : State) : Result :=
  match s.agenda with
  | [] => engineTurn s
  | t :: ts => takeTurn t { s with agenda := ts }

/-- The host offers the 16-bit word `w` as the oldest command, in place of the one that stood there, and the engine's turn is next. -/
def State.offerWord (s : State) (w : CmdWord) : State :=
  { s with
    cmds := w :: s.cmds.tail
    agenda := match s.agenda with
      | [] => []
      | .engine :: ts => .engine :: ts
      | ts => .engine :: ts }

end Sys2Proof.Machine
end

