-- ==== Sys2Proof/Machine/Step.lean ====
section
/-! DEFINITION. The one step of the machine: one turn of one agent (00_scope.md R14). -/

namespace Sys2Proof.Machine

/-- One step: the next turn on the agenda. -/
def step (s : State) : Host.Outcome State Fault Refusal := nextTurn s

/-- `s` with the table word `w` where the engine takes its next command: the head of the command port. Log entry 8. -/
def State.withFetchWord (s : State) (nbits w : Nat) : State := s.offerWord (BitVec.ofNat 16 (w % 2 ^ nbits))

end Sys2Proof.Machine
end

