-- ==== Sys2Proof/Machine/HostCodec.lean ====
section
/-! DEFINITION. The host codec procedure (48_host_codec.md): the surrounding software that drives the engine through its command and
response ports. The host is ordinary deterministic software (R6); what it does to the engine is only the actions of 20_memory.md R60. -/

namespace Sys2Proof.Machine

/-! ### Results of a host call (R210, R211, R214) -/

/-- D0's flat error taxonomy (R210). -/
inductive HostError where
  | invalidWitnessVersion
  | invalidProgramSize
  | invalidPrefix
  | invalidLength
  | tooShort
  | mixedCase
  | emptySeparatorMissing
  | emptyHrp
  | tooShortChecksum
  | outOfRangeCharacter
  | invalidChecksum
  | invalidValueForConvertBits
  | invalidPaddingData
  deriving DecidableEq, Repr

/-- The host codes 1 to 13 (R210). -/
def HostError.code : HostError → Nat
  | .invalidWitnessVersion => 1
  | .invalidProgramSize => 2
  | .invalidPrefix => 3
  | .invalidLength => 4
  | .tooShort => 5
  | .mixedCase => 6
  | .emptySeparatorMissing => 7
  | .emptyHrp => 8
  | .tooShortChecksum => 9
  | .outOfRangeCharacter => 10
  | .invalidChecksum => 11
  | .invalidValueForConvertBits => 12
  | .invalidPaddingData => 13

/-- A host call returns a result or exactly one host error (R210); ILLEGAL_CMD in a procedure is a host fault (R214). -/
inductive CallResult (α : Type) where
  | ok (a : α)
  | error (e : HostError)
  | fault (f : Fault)
  deriving DecidableEq, Repr

/-- A part of a host call: from the engine's state to a result and the engine's state after it. -/
abbrev HostCall (α : Type) := State → CallResult α × State

/-- First `m`, then `k` on its result; an error or a fault of `m` ends the call (R211: "any failure aborts with no partial output"). -/
def HostCall.andThen {α β : Type} (m : HostCall α) (k : α → HostCall β) : HostCall β := fun s =>
  match m s with
  | (.ok a, s') => k a s'
  | (.error e, s') => (.error e, s')
  | (.fault f, s') => (.fault f, s')

/-- A result that takes no engine command. -/
def HostCall.pure {α : Type} (a : α) : HostCall α := fun s => (.ok a, s)

/-- A check of the host's own: no engine command. -/
def HostCall.ofExcept {α : Type} (r : Except HostError α) : HostCall α := fun s =>
  match r with
  | .ok a => (.ok a, s)
  | .error e => (.error e, s)

/-! ### One command of the host (R215) -/

/-- `PopRsp` until RSPQ is empty: `n` pops. -/
def State.popMany : (n : Nat) → State → State
  | 0, s => s
  | n + 1, s => State.popMany n s.hostPop

/-- What the status outputs tell the host after a command (R214): the engine's INVALID_VALUE and INVALID_PADDING are host errors 12 and 13,
ILLEGAL_CMD is a host fault. -/
def State.verdict (s : State) (words : List RspWord) : CallResult (List RspWord) :=
  if s.errl then
    match s.ecode.toNat with
    | 2 => .error .invalidValueForConvertBits
    | 3 => .error .invalidPaddingData
    | _ => .fault .hostIllegalCmd
  else .ok words

/-- The state an outcome leaves; a stopped engine stays as it was. -/
def stateAfter (o : Result) (s : State) : State :=
  match o with
  | .next s' => s'
  | .fault _ => s
  | .refused _ => s

/-- The host issues one command: it writes the word, the engine takes its turn, and the host pops the words it finds, in order (R215).
Log entry 14. -/
def issue (w : CmdWord) : HostCall (List RspWord) := fun s =>
  let s1 := s.hostWrite w
  let s2 := stateAfter (engineTurn s1) s1
  let s3 := State.popMany s2.rspq.length s2
  (s3.verdict s2.rspq, s3)

/-- Commands in order, collecting every pushed word in order; the first failure ends the call. -/
def issueAll : List Instr → HostCall (List RspWord)
  | [] => HostCall.pure []
  | i :: is =>
    (issue (encode i)).andThen fun ws => (issueAll is).andThen fun ws' => HostCall.pure (ws ++ ws')

/-- Every host call starts with the engine in the clean state, reached by SRST (R211, R215). Log entry 15. -/
def startCall : HostCall Unit := (issue (encode .srst)).andThen fun _ => HostCall.pure ()

/-! ### WitnessValidator (R212) -/

/-- `validate(version, program)`: three checks in this order (R212). -/
def validate (version : Nat) (program : List Byte) : Except HostError Unit :=
  if ¬ version ≤ 16 then .error .invalidWitnessVersion
  else if program.length < 2 ∨ 40 < program.length then .error .invalidProgramSize
  else if version = 0 ∧ ¬ (program.length = 20 ∨ program.length = 32) then .error .invalidProgramSize
  else .ok ()

/-! ### Command sequences of the procedures -/

/-- The pseudo-instruction PM_HRP (R81, R140): the 2n+1 commands that feed hrpExpand. -/
def pmHrp (hrp : List Byte) : List Instr := hrp.map .pmHrph ++ [.pmSym 0] ++ hrp.map .pmHrpl

/-- `createChecksum` as commands (R144, R220 step 4). -/
def checksumCommands (hrp : List Byte) (symbols : List Sym) : List Instr :=
  [.pmInit] ++ pmHrp hrp ++ symbols.map .pmSym ++ [.pmFin]

/-- `verifyChecksum` as commands (R147, R236). -/
def verifyCommands (hrp : List Byte) (data : List Sym) : List Instr :=
  [.pmInit] ++ pmHrp hrp ++ data.map .pmSym ++ [.pmVfy]

/-- `convert` as commands (R105). -/
def convertCommands (f t : BitVec 4) (data : List Byte) (pad : Bool) : List Instr :=
  [.cvCfg f t] ++ data.map .cvPush ++ [.cvFlush pad]

/-- A response word as a symbol: the words of the (8, 5) conversion, of PM_FIN and of a valid CS_REV are 0 to 31. -/
def symOf (w : RspWord) : Sym := w.setWidth 5

/-- A response word as a byte. -/
def byteOf (w : RspWord) : Byte := w.setWidth 8

/-! ### encode_segwit (R220) -/

/-- The separator `'1'` (R13, R233). -/
def separator : Byte := 0x31

/-- `encode_segwit(hrp, version, program) -> string` (R220). It checks nothing about the HRP and no total length (R221). -/
def encodeSegwit (hrp : List Byte) (version : Nat) (program : List Byte) : HostCall (List Byte) :=
  startCall.andThen fun _ =>
  (HostCall.ofExcept (validate version program)).andThen fun _ =>
  (issueAll (convertCommands 8 5 program true)).andThen fun bits =>
  let symbols : List Sym := BitVec.ofNat 5 version :: bits.map symOf
  (issueAll (checksumCommands hrp symbols)).andThen fun checksum =>
  (issueAll ((symbols ++ checksum.map symOf).map .csFwd)).andThen fun mapped =>
  HostCall.pure (hrp ++ [separator] ++ mapped.map byteOf)

/-! ### decode_segwit (R230 to R241) -/

/-- `MAX_LEN` = 90 (R8). -/
def maxLen : Nat := 90

/-- A byte `'A'` to `'Z'` (R231). -/
def isUpper (b : Byte) : Bool := decide (0x41 ≤ b.toNat) && decide (b.toNat ≤ 0x5A)

/-- A byte `'a'` to `'z'` (R231). -/
def isLower (b : Byte) : Bool := decide (0x61 ≤ b.toNat) && decide (b.toNat ≤ 0x7A)

/-- Folding (R232): an uppercase letter plus 0x20, every other byte unchanged. -/
def foldCase (b : Byte) : Byte := if isUpper b then b + 0x20 else b

/-- The single left-to-right scan (R231) from index `i`, with `seen_upper`, `seen_lower` and `sep` so far: the folded text and the index
of the last `'1'`. -/
def scanText (i : Nat) (seenUpper seenLower : Bool) (sep : Option Nat) :
    List Byte → Except HostError (List Byte × Option Nat)
  | [] => .ok ([], sep)
  | b :: bs =>
    if b.toNat < 33 ∨ 126 < b.toNat then .error .outOfRangeCharacter
    else
      let up := seenUpper || isUpper b
      let low := seenLower || isLower b
      if up && low then .error .mixedCase
      else
        match scanText (i + 1) up low (if foldCase b = separator then some i else sep) bs with
        | .ok (cs, last) => .ok (foldCase b :: cs, last)
        | .error e => .error e

/-- Decode steps 1 to 3 (R230, R231, R233) and the split of step 4 (R234): the folded HRP and the folded data bytes. -/
def splitText (text : List Byte) : Except HostError (List Byte × List Byte) :=
  if maxLen < text.length then .error .invalidLength
  else if text.length < 8 then .error .tooShort
  else
    match scanText 0 false false none text with
    | .error e => .error e
    | .ok (_, none) => .error .emptySeparatorMissing
    | .ok (t, some sep) =>
      if sep = 0 then .error .emptyHrp
      else if t.length - sep - 1 < 6 then .error .tooShortChecksum
      else .ok (t.take sep, t.drop (sep + 1))

/-- The end of step 4 (R235): a sentinel among the CS_REV words is an out-of-range character. -/
def rejectSentinel (words : List RspWord) : Except HostError (List Sym) :=
  if words.any (fun w => byteOf w == 0xFF) then .error .outOfRangeCharacter else .ok (words.map symOf)

/-- Step 5's answer (R236): a PM_VFY word of 0 is a bad checksum. -/
def checkVerified (words : List RspWord) : Except HostError Unit :=
  if words.all (fun w => w == 0) then .error .invalidChecksum else .ok ()

/-- Steps 6 and 7 (R237, R238): the six checksum symbols are stripped, the prefix compared byte for byte, the length checked. What is
left is the version symbol and the symbols of the program. -/
def payloadOf (expectedHrp hrp : List Byte) (data : List Sym) : Except HostError (Sym × List Sym) :=
  if hrp ≠ expectedHrp then .error .invalidPrefix
  else
    match data.take (data.length - 6) with
    | [] => .error .invalidLength
    | version :: rest => if 65 < rest.length + 1 then .error .invalidLength else .ok (version, rest)

/-- `decode_segwit(expected_hrp, text)` (R230 to R241). -/
def decodeSegwit (expectedHrp text : List Byte) : HostCall (Nat × List Byte) :=
  startCall.andThen fun _ =>
  (HostCall.ofExcept (splitText text)).andThen fun (hrp, dataBytes) =>
  (issueAll (dataBytes.map .csRev)).andThen fun reversed =>
  (HostCall.ofExcept (rejectSentinel reversed)).andThen fun data =>
  (issueAll (verifyCommands hrp data)).andThen fun verified =>
  (HostCall.ofExcept (checkVerified verified)).andThen fun _ =>
  (HostCall.ofExcept (payloadOf expectedHrp hrp data)).andThen fun (version, rest) =>
  (issueAll (convertCommands 5 8 (rest.map fun v => v.setWidth 8) false)).andThen fun bytes =>
  let program := bytes.map byteOf
  (HostCall.ofExcept (validate version.toNat program)).andThen fun _ =>
  HostCall.pure (version.toNat, program)

end Sys2Proof.Machine
end

