-- ==== Sys2Proof/Machine/Assembler.lean ====
section
/-! DEFINITION. The assembler and the disassembler (30_encoding.md R80, R81): lines as data, their words, and the reading of a line of
text. Log entry 19. -/

namespace Sys2Proof.Machine

/-! ### Lines as data -/

/-- The mnemonics that take no operand (R80). -/
inductive BareMnemonic where
  | nop
  | pmInit
  | pmFin
  | pmVfy
  | clrerr
  | srst
  | pmSep
  | cvEnc
  | cvDec
  | rdstat
  deriving DecidableEq, Repr

/-- One line of assembler source (R80, R81). Operands are the numbers as written; the assembler refuses one out of its range. -/
inductive AsmLine where
  /-- A mnemonic or a pseudo-instruction without operands. -/
  | bare (m : BareMnemonic)
  | pmSym (s : Nat)
  | csFwd (s : Nat)
  | pmHrph (b : Nat)
  | pmHrpl (b : Nat)
  | csRev (b : Nat)
  | cvPush (v : Nat)
  | cvCfg (f t : Nat)
  | cvFlush (p : Nat)
  | rd (r : Nat)
  /-- `PM_HRP "..."` (R81). -/
  | pmHrp (hrp : List Byte)
  /-- `.word 0xNNNN`: any 16-bit word. -/
  | word (w : Nat)
  deriving DecidableEq, Repr

/-- The commands a bare mnemonic stands for (R80, R81). -/
def BareMnemonic.instr : BareMnemonic → Instr
  | .nop => .nop
  | .pmInit => .pmInit
  | .pmFin => .pmFin
  | .pmVfy => .pmVfy
  | .clrerr => .clrerr
  | .srst => .srst
  | .pmSep => .pmSym 0
  | .cvEnc => .cvCfg 8 5
  | .cvDec => .cvCfg 5 8
  | .rdstat => .rd .status

/-- An operand of 0 to 2^n − 1; refused outside (R80). -/
def operand (n v : Nat) (k : BitVec n → Instr) : Option (List CmdWord) :=
  if v < 2 ^ n then some [encode (k (BitVec.ofNat n v))] else none

/-- The words of a line; none where the assembler refuses it. "It never emits an illegal word for a mnemonic" (R80). -/
def assemble : AsmLine → Option (List CmdWord)
  | .bare m => some [encode m.instr]
  | .pmSym s => operand 5 s .pmSym
  | .csFwd s => operand 5 s .csFwd
  | .pmHrph b => operand 8 b .pmHrph
  | .pmHrpl b => operand 8 b .pmHrpl
  | .csRev b => operand 8 b .csRev
  | .cvPush v => operand 8 v .cvPush
  | .cvCfg f t =>
    if 1 ≤ f ∧ f ≤ 8 ∧ 1 ≤ t ∧ t ≤ 8 then some [encode (.cvCfg (BitVec.ofNat 4 f) (BitVec.ofNat 4 t))] else none
  | .cvFlush p => if p ≤ 1 then some [encode (.cvFlush (p == 1))] else none
  | .rd r => if r ≤ 5 then (RdReg.ofIndex (BitVec.ofNat 4 r)).map fun r => [encode (.rd r)] else none
  | .pmHrp hrp => some ((Sys2Proof.Machine.pmHrp hrp).map encode)
  | .word w => if w < 2 ^ 16 then some [BitVec.ofNat 16 w] else none

/-- The line a command is printed as. -/
def lineOf : Instr → AsmLine
  | .nop => .bare .nop
  | .pmInit => .bare .pmInit
  | .pmSym s => .pmSym s.toNat
  | .pmHrph b => .pmHrph b.toNat
  | .pmHrpl b => .pmHrpl b.toNat
  | .pmFin => .bare .pmFin
  | .pmVfy => .bare .pmVfy
  | .cvCfg f t => .cvCfg f.toNat t.toNat
  | .cvPush v => .cvPush v.toNat
  | .cvFlush p => .cvFlush (if p then 1 else 0)
  | .csFwd s => .csFwd s.toNat
  | .csRev b => .csRev b.toNat
  | .rd r => .rd r.index.toNat
  | .clrerr => .bare .clrerr
  | .srst => .bare .srst

/-- The disassembler: "prints every word it cannot decode" as `.word` (R80). -/
def disassemble (w : CmdWord) : AsmLine :=
  match decode w with
  | .command i => lineOf i
  | .illegal _ => .word w.toNat

/-! ### The text of a line -/

/-- A blank between parts of a line. -/
def isBlank (c : Char) : Bool := c == ' ' || c == '\t'

/-- A character's ASCII code as a byte (R10); none beyond ASCII. -/
def asciiByte (c : Char) : Option Byte := if c.toNat < 128 then some (BitVec.ofNat 8 c.toNat) else none

/-- A digit's value in base 16; a decimal digit is below 10. -/
def digitValue (c : Char) : Option Nat :=
  if 48 ≤ c.toNat ∧ c.toNat ≤ 57 then some (c.toNat - 48)
  else if 65 ≤ c.toNat ∧ c.toNat ≤ 70 then some (c.toNat - 55)
  else if 97 ≤ c.toNat ∧ c.toNat ≤ 102 then some (c.toNat - 87)
  else none

/-- Digits in base `base`, most significant first, after the value `acc`. -/
def readDigits (base acc : Nat) : List Char → Option Nat
  | [] => some acc
  | c :: cs =>
    match digitValue c with
    | some d => if d < base then readDigits base (acc * base + d) cs else none
    | none => none

/-- A number (R80): `'c'` for a character's code, `0x` hexadecimal, or decimal. -/
def readNumber : List Char → Option Nat
  | ['\'', c, '\''] => (asciiByte c).map fun b => b.toNat
  | '0' :: 'x' :: c :: cs => readDigits 16 0 (c :: cs)
  | [] => none
  | c :: cs => readDigits 10 0 (c :: cs)

/-- The line up to its comment: a `;` outside a character literal starts it (R80); a character literal is three characters
long. A string literal is read before this (`readParts`). -/
def stripComment : List Char → List Char
  | [] => []
  | '\'' :: c :: '\'' :: cs => '\'' :: c :: '\'' :: stripComment cs
  | ';' :: _ => []
  | c :: cs => c :: stripComment cs

/-- Blanks removed at both ends. -/
def trimBlanks (cs : List Char) : List Char := ((cs.dropWhile isBlank).reverse.dropWhile isBlank).reverse

/-- The operands of a line: separated by commas outside a character literal (R80), each trimmed. `cur` is the operand read so far,
backwards. -/
def splitCommas (cur : List Char) : List Char → List (List Char)
  | [] => [trimBlanks cur.reverse]
  | '\'' :: c :: '\'' :: cs => splitCommas ('\'' :: c :: '\'' :: cur) cs
  | ',' :: cs => trimBlanks cur.reverse :: splitCommas [] cs
  | c :: cs => splitCommas (c :: cur) cs

/-- The body of a string literal after its opening quote: its bytes up to the closing quote, which ends the line but for a comment. -/
def readString : List Char → Option (List Byte)
  | [] => none
  | '"' :: cs => if trimBlanks (stripComment cs) = [] then some [] else none
  | c :: cs =>
    match asciiByte c, readString cs with
    | some b, some bs => some (b :: bs)
    | _, _ => none

/-- A register of RD by name or index (R80). -/
def readRegister (t : List Char) : Option Nat :=
  if t = "CHK".toList then some 0
  else if t = "ACC".toList then some 1
  else if t = "CNT".toList then some 2
  else if t = "CFG".toList then some 3
  else if t = "STATUS".toList then some 4
  else if t = "ECMD".toList then some 5
  else readNumber t

/-- The padding operand of CV_FLUSH: PAD, NOPAD or a number (R80). -/
def readPad (t : List Char) : Option Nat :=
  if t = "PAD".toList then some 1
  else if t = "NOPAD".toList then some 0
  else readNumber t

/-- A mnemonic with no operand. -/
def readBare (m : List Char) : Option BareMnemonic :=
  if m = "NOP".toList then some .nop
  else if m = "PM_INIT".toList then some .pmInit
  else if m = "PM_FIN".toList then some .pmFin
  else if m = "PM_VFY".toList then some .pmVfy
  else if m = "CLRERR".toList then some .clrerr
  else if m = "SRST".toList then some .srst
  else if m = "PM_SEP".toList then some .pmSep
  else if m = "CV_ENC".toList then some .cvEnc
  else if m = "CV_DEC".toList then some .cvDec
  else if m = "RDSTAT".toList then some .rdstat
  else none

/-- A mnemonic with one operand. -/
def readUnary (m t : List Char) : Option AsmLine :=
  if m = "PM_SYM".toList then (readNumber t).map .pmSym
  else if m = "CS_FWD".toList then (readNumber t).map .csFwd
  else if m = "PM_HRPH".toList then (readNumber t).map .pmHrph
  else if m = "PM_HRPL".toList then (readNumber t).map .pmHrpl
  else if m = "CS_REV".toList then (readNumber t).map .csRev
  else if m = "CV_PUSH".toList then (readNumber t).map .cvPush
  else if m = "CV_FLUSH".toList then (readPad t).map .cvFlush
  else if m = "RD".toList then (readRegister t).map .rd
  else if m = ".word".toList then (readNumber t).map .word
  else none

/-- A mnemonic and the rest of its line. -/
def readParts (m rest : List Char) : Option AsmLine :=
  match m, trimBlanks rest with
  | m, '"' :: cs => if m = "PM_HRP".toList then (readString cs).map .pmHrp else none
  | m, rest =>
    match splitCommas [] (stripComment rest) with
    | [t] =>
      if t = [] then (readBare m).map .bare else readUnary m t
    | [t, u] =>
      if m = "CV_CFG".toList then
        match readNumber t, readNumber u with
        | some f, some t => some (.cvCfg f t)
        | _, _ => none
      else none
    | _ => none

/-- A line of source text (R80): the outer option is none where the line cannot be read; a line with no command gives `some none`. -/
def readLine (text : List Char) : Option (Option AsmLine) :=
  let line := text.dropWhile isBlank
  match line with
  | [] => some none
  | ';' :: _ => some none
  | _ =>
    let m := line.takeWhile fun c => !isBlank c && c != ';'
    (readParts m (line.drop m.length)).map some

/-- The words of a line of source text. -/
def assembleText (text : List Char) : Option (List CmdWord) :=
  match readLine text with
  | none => none
  | some none => some []
  | some (some l) => assemble l

end Sys2Proof.Machine
end

