-- ==== Sys2Proof/Machine/Reference.lean ====
section
/-! DEFINITION. D0's pure functions, which the commands are the hardware form of: hrpExpand, polyMod, createChecksum, verifyChecksum
(42_checksum.md R132, R140, R144, R147) and convert (41_bitconv.md R102, R104, R105). Log entry 21. -/

namespace Sys2Proof.Machine

/-- `hrpExpand(hrp)` (R140): every byte's high part, a 0, every byte's low part. -/
def hrpExpand (hrp : List Byte) : List Sym := hrp.map hrpHigh ++ [0] ++ hrp.map hrpLow

/-- `polyMod(values)` (R132): CHK_INIT, then one step per value. -/
def polyMod (values : List Sym) : Chk := polyFeed chkInit values

/-- `createChecksum(hrp, data)`: `polyMod(hrpExpand(hrp) ++ data ++ [0,0,0,0,0,0]) XOR M`, split into six symbols (R142, R143). -/
def createChecksum (hrp : List Byte) (data : List Sym) : List Sym :=
  checksumSymbols (polyMod (hrpExpand hrp ++ data ++ List.replicate 6 0) ^^^ targetM)

/-- `verifyChecksum(hrp, data)`: `polyMod(hrpExpand(hrp) ++ data) == M` (R146). -/
def verifyChecksum (hrp : List Byte) (data : List Sym) : Bool := polyMod (hrpExpand hrp ++ data) == targetM

/-- D0's post-loop (R104): with `pad` a final symbol for residual bits; without, residual bits must be zero and fewer than `f`. -/
def convertEnd (f t : Nat) (pad : Bool) (acc cnt : Nat) : Except EngineError (List Nat) :=
  if pad then .ok (if 0 < cnt then [residue t acc cnt] else [])
  else if f ≤ cnt ∨ residue t acc cnt ≠ 0 then .error .invalidPadding
  else .ok []

/-- D0's loop over the data, from an accumulator and a counter (R102). -/
def convertFrom (f t : Nat) (pad : Bool) : (data : List Nat) → (acc cnt : Nat) → Except EngineError (List Nat)
  | [], acc, cnt => convertEnd f t pad acc cnt
  | v :: data, acc, cnt =>
    if 2 ^ f ≤ v then .error .invalidValue
    else
      let acc' := shiftIn f t acc v
      let cnt' := cnt + f
      match convertFrom f t pad data acc' (emitRest t cnt' cnt') with
      | .ok ws => .ok (emitWords t acc' cnt' cnt' ++ ws)
      | .error e => .error e

/-- `convert(data, fromBits, toBits, pad)` (R105): the accumulator and the counter start at 0; a failure gives no output. -/
def convert (data : List Nat) (f t : Nat) (pad : Bool) : Except EngineError (List Nat) := convertFrom f t pad data 0 0

end Sys2Proof.Machine
end

