-- ==== Sys2Proof/Safety.lean ====
section
/-! DEFINITION. What is true of every state a run from reset reaches, and the states a host call starts from and ends in, in the terms
the statements use. -/

namespace Sys2Proof.Machine

/-- The BCU's registers between commands: legal widths (R24), `CNT < TO` (R26), and ACC below `2^(FROM+TO−1)` (R25, R103). -/
abbrev State.BcuInRange (s : State) : Prop :=
  (1 ≤ s.fromW ∧ s.fromW ≤ 8) ∧ (1 ≤ s.toW ∧ s.toW ≤ 8) ∧ s.cnt.toNat < s.toW ∧ s.acc.toNat < 2 ^ (s.fromW + s.toW - 1)

/-- RSPQ within its capacity, which is a legal `RSP_DEPTH` (R8, R30). -/
abbrev State.QueueInDepth (s : State) : Prop :=
  Config.rspDepthMin ≤ s.rspDepth ∧ s.rspq.length ≤ s.rspDepth

/-- Whether ECODE and ECMD can be the record of one error (R261): code 1 with an illegal word, code 2 with a CV_PUSH word, code 3 with the
word of CV_FLUSH NOPAD. No other code is produced. -/
def errorRecord (code : BitVec 4) (w : CmdWord) : Bool :=
  match code.toNat with
  | 1 => (decode w).instr?.isNone
  | 2 => w &&& 0xFF00 == 0x8000
  | 3 => w == 0x9000
  | _ => false

/-- STATUS and ECMD agree: the reserved bits are 0 (R27), with ERRL = 0 there is no record (R29), with ERRL = 1 there is one (R261). -/
abbrev State.LatchConsistent (s : State) : Prop :=
  s.statusReserved = 0 ∧ (s.errl = false → s.ecode = 0 ∧ s.ecmd = 0) ∧ (s.errl = true → errorRecord s.ecode s.ecmd = true)

/-- The invariant of the machine. -/
abbrev State.Inv (s : State) : Prop := s.BcuInRange ∧ s.QueueInDepth ∧ s.LatchConsistent

/-- The clean state a host call starts from (R215), with nothing pending on the command port (R298). -/
abbrev State.Clean (s : State) : Prop :=
  s.errl = false ∧ s.rspq = [] ∧ s.cmds = [] ∧ Config.rspDepthMin ≤ s.rspDepth

/-- The engine is quiescent (R298): no command pending, none waiting. -/
abbrev State.Quiescent (s : State) : Prop := s.cmds = [] ∧ Config.rspDepthMin ≤ s.rspDepth

/-- The k words of a command fit (R59). -/
abbrev State.Fits (s : State) (k : Nat) : Prop := k = 0 ∨ s.rspq.length + k ≤ s.rspDepth

/-- The bits of a value of width `n`, most significant first (R56). -/
def msbBits : (n v : Nat) → List Bool
  | 0, _ => []
  | n + 1, v => v.testBit n :: msbBits n v

/-- The bits of a sequence of values of width `n`, in order. -/
def streamBits (n : Nat) (vs : List Nat) : List Bool := vs.flatMap (msbBits n)

/-- A turn of the agenda that clears RSPQ: a reset, or the engine's turn at an SRST. -/
def State.clearsQueue (s : State) : Bool :=
  match s.agenda with
  | [] => s.cmds.head? == some (encode .srst)
  | .engine :: _ => s.cmds.head? == some (encode .srst)
  | .reset :: _ => true
  | .writeCmd _ :: _ => false
  | .popRsp :: _ => false

end Sys2Proof.Machine
end

