-- ==== Sys2Proof/Certificates/Slice0/Obligations.lean ====
section
/-! DEFINITION. The statements for the provers, from the numbered rules of spec/. In a frame, `{ s with … }` names every field that may
change; every other field of State is as in `s`. The engine has no memory (20_memory.md R50), so no statement speaks of one. -/

open Sys2Proof Sys2Proof.Machine

/-! ### Encoding (30_encoding.md) -/

/-- R71, R72, R74: decoding the encoding of a command gives it back, whatever its operands. -/
def Obligations.DecodeInvertsEncode : Prop :=
  ∀ i : Instr, i.wellFormed = true → decode (encode i) = .command i

/-- R74, R75: a word that decodes is the encoding of that one command, whose constraint holds, and it matches the command's row. -/
def Obligations.EachLegalWordHasOneReading : Prop :=
  ∀ (w : CmdWord) (i : Instr), decode w = .command i →
    i.wellFormed = true ∧ encode i = w ∧ w &&& i.row.mask = i.row.pattern

/-- R76: exactly the words of (a) to (d) are illegal, and executing one with ERRL = 0 raises ILLEGAL_CMD and has no other effect. -/
def Obligations.IllegalWordsRaiseIllegalCmd : Prop :=
  (∀ w : CmdWord, (∃ why, decode w = .illegal why) ↔
    (opField w = 0xF ∨
      (xField w ≠ 0 ∧ opField w ≠ 0x9 ∧ opField w ≠ 0xC) ∨
      (immField w ≠ 0 ∧ opField w ∈ [0x0, 0x1, 0x5, 0x6, 0x9, 0xC, 0xD, 0xE]) ∨
      (32 ≤ (immField w).toNat ∧ opField w ∈ [0x2, 0xA]) ∨
      (1 < (xField w).toNat ∧ opField w = 0x9) ∨
      (opField w = 0x7 ∧
        ((immField w).toNat % 16 = 0 ∨ 9 ≤ (immField w).toNat % 16 ∨
          (immField w).toNat / 16 = 0 ∨ 9 ≤ (immField w).toNat / 16)) ∨
      (opField w = 0xC ∧ 6 ≤ (xField w).toNat))) ∧
  ∀ (s : State) (w : CmdWord) (why : Illegal), decode w = .illegal why → s.errl = false →
    ∃ t, runWord w s = .next t ∧ t.errl = true ∧ t.ecode = 1 ∧ t.vok = s.vok ∧ t.statusReserved = s.statusReserved ∧
      t = { s with status := t.status, ecmd := w, cmds := s.cmds.tail }

/-- R77: an illegal word that arrives while ERRL = 1 is dropped. -/
def Obligations.IllegalWordsAreDroppedWhileLatched : Prop :=
  ∀ (s : State) (w : CmdWord) (why : Illegal), decode w = .illegal why → s.errl = true →
    runWord w s = .next { s with cmds := s.cmds.tail }

/-- Words written out from the spec's encodings, one per row of the opcode map, decode to the commands they stand for. -/
def Obligations.SpecWordsDecode : Prop :=
  decode 0x0000 = .command .nop ∧ decode 0x1000 = .command .pmInit ∧ decode 0x201F = .command (.pmSym 31) ∧
    decode 0x3061 = .command (.pmHrph 0x61) ∧ decode 0x4061 = .command (.pmHrpl 0x61) ∧
    decode 0x5000 = .command .pmFin ∧ decode 0x6000 = .command .pmVfy ∧ decode 0x7085 = .command (.cvCfg 5 8) ∧
    decode 0x80A5 = .command (.cvPush 0xA5) ∧ decode 0x9100 = .command (.cvFlush true) ∧
    decode 0xA00F = .command (.csFwd 15) ∧ decode 0xB071 = .command (.csRev 0x71) ∧
    decode 0xC400 = .command (.rd .status) ∧ decode 0xD000 = .command .clrerr ∧ decode 0xE000 = .command .srst

/-- R75: no word matches two rows of the opcode map. -/
def Obligations.OpcodeRowsDoNotOverlap : Prop :=
  opcodeRows.Pairwise fun a b => ∀ w : CmdWord, ¬ (w &&& a.mask = a.pattern ∧ w &&& b.mask = b.pattern)

/-! ### Steps, the host's actions and reset (20_memory.md, 70_reset_and_hazards.md) -/

/-- When it is the engine's turn, the step runs the oldest written word, whatever it is: a word that decodes to `i` runs `exec i`; an illegal
word raises ILLEGAL_CMD with no other effect (R76), and is dropped while ERRL = 1 (R77). The turn is taken off the agenda, which is the
model's own (log entry 3). -/
def Obligations.StepRunsDecodedCommand : Prop :=
  ∀ (s : State) (w : CmdWord) (rest : List CmdWord),
    (s.agenda = [] ∨ ∃ ts, s.agenda = .engine :: ts) → s.cmds = w :: rest →
    step s = runWord w { s with agenda := s.agenda.tail } ∧
    (∀ i : Instr, decode w = .command i → step s = exec i { s with agenda := s.agenda.tail }) ∧
    ∀ why : Illegal, decode w = .illegal why →
      (s.errl = false → ∃ t, step s = .next t ∧ t.errl = true ∧ t.ecode = 1 ∧ t.vok = s.vok ∧
        t.statusReserved = s.statusReserved ∧
        t = { s with agenda := s.agenda.tail, status := t.status, ecmd := w, cmds := rest }) ∧
      (s.errl = true → step s = .next { s with agenda := s.agenda.tail, cmds := rest })

/-- R60: WriteCmd hands over a command; PopRsp removes the head of RSPQ and returns it. The model's choices: the agenda (log entry 3), the
list `popped` of returned words (5), and a pop of an empty RSPQ, which transfers nothing (4). -/
def Obligations.HostTurnsDoHostActions : Prop :=
  ∀ (s : State) (ts : List Turn),
    (∀ w, s.agenda = .writeCmd w :: ts → step s = .next { s with agenda := ts, cmds := s.cmds ++ [w] }) ∧
    (∀ w ws, s.agenda = .popRsp :: ts → s.rspq = w :: ws →
      step s = .next { s with agenda := ts, rspq := ws, popped := s.popped ++ [w] }) ∧
    (s.agenda = .popRsp :: ts → s.rspq = [] → step s = .next { s with agenda := ts })

/-- R33, R290: a reset gives every piece of state its value of the table of R33, empties RSPQ and abandons every pending command,
whatever the state was; and the state after reset holds those values. -/
def Obligations.ResetSetsEveryPieceOfState : Prop :=
  (∀ (s : State) (ts : List Turn), s.agenda = .reset :: ts →
    step s = .next { s with
      chk := 1, acc := 0, cnt := 0, cfg := 0x58, status := 0x00, ecmd := 0x0000, rspq := [], cmds := [], agenda := ts }) ∧
  State.reset.chk = 1 ∧ State.reset.acc = 0 ∧ State.reset.cnt = 0 ∧ State.reset.cfg = 0x58 ∧
    State.reset.status = 0x00 ∧ State.reset.ecmd = 0x0000 ∧ State.reset.rspq = [] ∧ State.reset.cmds = []

/-- R277: with no command pending the engine holds its state (the agenda is the model's, log entry 3). -/
def Obligations.IdleEngineHoldsItsState : Prop :=
  ∀ s : State, s.cmds = [] →
    (s.agenda = [] → step s = .next s) ∧
    (∀ ts, s.agenda = .engine :: ts → step s = .next { s with agenda := ts })

/-- R59, R260, R262: no step of any state stops with a fault or a refusal. Two parts of it are the model's: the step of a waiting command is
a next state, the same state again (log entry 6), and a CV_PUSH with TO = 0, which CFG never holds, ends with its fuel (log entry 10). -/
def Obligations.StepAlwaysAnswersNext : Prop :=
  ∀ s : State, ∃ t, step s = .next t

/-! ### Invariants (10_state.md) -/

/-- The state after reset meets the invariants that follow. -/
def Obligations.ResetStateMeetsTheInvariants : Prop := State.reset.Inv

/-- R24, R26, R103: every step keeps the BCU in range: legal widths, CNT < TO, ACC < 2^(FROM+TO−1). -/
def Obligations.StepKeepsBcuInRange : Prop :=
  ∀ s t : State, s.BcuInRange → step s = .next t → t.BcuInRange

/-- R30: RSPQ never overflows, and nothing changes its capacity (which is a field of the model's State, log entry 1). -/
def Obligations.StepKeepsQueueInDepth : Prop :=
  ∀ s t : State, step s = .next t → t.rspDepth = s.rspDepth ∧ (s.QueueInDepth → t.QueueInDepth)

/-- R27, R29, R261: every step keeps STATUS and ECMD in agreement: reserved bits 0, ECODE and ECMD 0 while ERRL = 0, and while ERRL = 1
the record of an error that its ECMD word can raise. -/
def Obligations.StepKeepsLatchConsistent : Prop :=
  ∀ s t : State, s.LatchConsistent → step s = .next t → t.LatchConsistent

/-! ### The PME (42_checksum.md) -/

/-- R133: PM_INIT leaves CHK = 1 and everything else, VOK among it, as it was. -/
def Obligations.PmInitSetsChkToOne : Prop :=
  ∀ s : State, s.errl = false → exec .pmInit s = .next { s with chk := 1, cmds := s.cmds.tail }

/-- R131, R134: PM_SYM s leaves CHK = step(CHK, s): the low 25 bits moved up by 5, the value, and one constant per set syndrome bit. -/
def Obligations.PmSymTakesOneStep : Prop :=
  ∀ (s : State) (v : Sym), s.errl = false →
    exec (.pmSym v) s = .next { s with
      chk := (s.chk <<< 5) ^^^ v.setWidth 30 ^^^
        (if s.chk.getLsbD 25 then 0x3b6a57b2 else 0) ^^^ (if s.chk.getLsbD 26 then 0x26508e6d else 0) ^^^
        (if s.chk.getLsbD 27 then 0x1ea119fa else 0) ^^^ (if s.chk.getLsbD 28 then 0x3d4233dd else 0) ^^^
        (if s.chk.getLsbD 29 then 0x2a1462b3 else 0)
      cmds := s.cmds.tail }

/-- R135: the corner vectors of the step. -/
def Obligations.StepCornerVectors : Prop :=
  polyStep 0x3E000000 0 = 0x14CD914B ∧ polyStep 0x3FFFFFFF 31 = 0x2B326EB4 ∧ polyStep 0x01FFFFFF 31 = 0x3FFFFFFF

/-- R136, R138: PM_HRPH feeds b >> 5 and PM_HRPL feeds b & 31, for every byte. -/
def Obligations.PmHrpFeedsTheTwoHalves : Prop :=
  ∀ (s : State) (b : Byte), s.errl = false →
    exec (.pmHrph b) s = .next { s with chk := polyStep s.chk (BitVec.ofNat 5 (b.toNat / 32)), cmds := s.cmds.tail } ∧
    exec (.pmHrpl b) s = .next { s with chk := polyStep s.chk (BitVec.ofNat 5 (b.toNat % 32)), cmds := s.cmds.tail }

/-- R142, R143: PM_FIN takes six zero steps, adds M, keeps the result in CHK and pushes its six symbols, most significant first. -/
def Obligations.PmFinPushesSixSymbols : Prop :=
  ∀ (s : State) (c : Chk), s.errl = false → s.rspq.length + 6 ≤ s.rspDepth →
    c = polyStep (polyStep (polyStep (polyStep (polyStep (polyStep s.chk 0) 0) 0) 0) 0) 0 ^^^ 0x2BC830A3 →
    exec .pmFin s = .next { s with
      chk := c
      rspq := s.rspq ++
        [(c.extractLsb' 25 5).setWidth 32, (c.extractLsb' 20 5).setWidth 32, (c.extractLsb' 15 5).setWidth 32,
         (c.extractLsb' 10 5).setWidth 32, (c.extractLsb' 5 5).setWidth 32, (c.extractLsb' 0 5).setWidth 32]
      cmds := s.cmds.tail }

/-- R146: PM_VFY writes VOK with CHK == M, pushes it, and changes nothing else; a failed verification sets no error. -/
def Obligations.PmVfyWritesAndPushesVok : Prop :=
  ∀ s : State, s.errl = false → s.rspq.length + 1 ≤ s.rspDepth →
    ∃ t, exec .pmVfy s = .next t ∧ t.vok = decide (s.chk = 0x2BC830A3) ∧ t.errl = false ∧ t.ecode = s.ecode ∧
      t.statusReserved = s.statusReserved ∧
      t = { s with
        status := t.status
        rspq := s.rspq ++ [if s.chk = 0x2BC830A3 then 1 else 0]
        cmds := s.cmds.tail }

/-- R149: the step is linear over GF(2) in the pair (c, v), and for a fixed value a bijection of the 30-bit states. -/
def Obligations.PolyStepIsLinearAndBijective : Prop :=
  (∀ (c1 c2 : Chk) (v1 v2 : Sym), polyStep (c1 ^^^ c2) (v1 ^^^ v2) = polyStep c1 v1 ^^^ polyStep c2 v2) ∧
  ∀ v : Sym, Function.Bijective fun c : Chk => polyStep c v

/-- R148: a checksum created by PM_FIN always verifies: feeding the six symbols it pushes to the CHK it started from gives M. -/
def Obligations.CreatedChecksumVerifies : Prop :=
  ∀ s : State, s.errl = false → s.rspq.length + 6 ≤ s.rspDepth →
    ∃ t ws, exec .pmFin s = .next t ∧ t.rspq = s.rspq ++ ws ∧
      polyFeed s.chk (ws.map fun w => w.setWidth 5) = 0x2BC830A3

/-- R140: the commands of PM_HRP feed exactly hrpExpand(hrp) to CHK, push nothing and change nothing else. -/
def Obligations.PmHrpFeedsHrpExpand : Prop :=
  ∀ (s : State) (hrp : List Byte), s.Clean →
    issueAll (pmHrp hrp) s = (.ok [], { s with
      chk := polyFeed s.chk
        (hrp.map (fun b => BitVec.ofNat 5 (b.toNat / 32)) ++ [0] ++ hrp.map (fun b => BitVec.ofNat 5 (b.toNat % 32))) })

/-- R144: the command sequence of createChecksum, started in the clean state of R215, pushes exactly D0's createChecksum(h, d), in order.
The model's choices: the host pops after every command (log entry 14), and createChecksum is the model's transcription of D0's (21). -/
def Obligations.EngineCreatesTheChecksum : Prop :=
  ∀ (s : State) (h : List Byte) (d : List Sym), s.Clean →
    (issueAll (checksumCommands h d) s).1 = .ok ((createChecksum h d).map fun v => v.setWidth 32)

/-- R147: the command sequence of verifyChecksum, started in the clean state of R215, pushes 1 exactly when D0's verifyChecksum(h, d) holds,
else 0. The model's choices: the host pops after every command (log entry 14), and verifyChecksum is the model's transcription of D0's (21). -/
def Obligations.EngineVerifiesTheChecksum : Prop :=
  ∀ (s : State) (h : List Byte) (d : List Sym), s.Clean →
    (issueAll (verifyCommands h d) s).1 = .ok [if verifyChecksum h d then 1 else 0]

/-! ### The BCU (41_bitconv.md) -/

/-- R101: CV_CFG with legal widths sets FROM and TO and clears ACC and CNT; with a width outside 1 to 8 it raises ILLEGAL_CMD and leaves
CFG, ACC and CNT as they were (an ill-formed term is not a decoded word: log entry 12). -/
def Obligations.CvCfgStartsAConversion : Prop :=
  ∀ (s : State) (f t : BitVec 4), s.errl = false →
    ((1 ≤ f.toNat ∧ f.toNat ≤ 8 ∧ 1 ≤ t.toNat ∧ t.toNat ≤ 8) →
      ∃ u, exec (.cvCfg f t) s = .next u ∧ u.fromW = f.toNat ∧ u.toW = t.toNat ∧
        u = { s with cfg := BitVec.ofNat 8 (16 * t.toNat + f.toNat), acc := 0, cnt := 0, cmds := s.cmds.tail }) ∧
    (¬ (1 ≤ f.toNat ∧ f.toNat ≤ 8 ∧ 1 ≤ t.toNat ∧ t.toNat ≤ 8) →
      ∃ u, exec (.cvCfg f t) s = .next u ∧ u.errl = true ∧ u.ecode = 1 ∧ u.vok = s.vok ∧
        u.statusReserved = s.statusReserved ∧
        u = { s with
          status := u.status
          ecmd := BitVec.ofNat 16 (0x7000 + 16 * t.toNat + f.toNat)
          cmds := s.cmds.tail })

/-- R102, R56: CV_PUSH v with v < 2^FROM shifts v in below the old bits and pushes the floor((CNT+FROM)/TO) highest groups of TO
unconsumed bits, highest first; the rest of the bits stay. The premise is the invariant of `StepKeepsBcuInRange`. -/
def Obligations.CvPushShiftsInAndEmits : Prop :=
  ∀ (s : State) (v : Byte) (n a : Nat), s.errl = false → s.BcuInRange → v.toNat < 2 ^ s.fromW →
    n = s.cnt.toNat + s.fromW → a = (s.acc.toNat * 2 ^ s.fromW + v.toNat) % 2 ^ (s.fromW + s.toW - 1) →
    s.Fits (n / s.toW) →
    exec (.cvPush v) s = .next { s with
      acc := BitVec.ofNat 15 a
      cnt := BitVec.ofNat 4 (n % s.toW)
      rspq := s.rspq ++ (List.range (n / s.toW)).map fun j => BitVec.ofNat 32 (a / 2 ^ (n - (j + 1) * s.toW) % 2 ^ s.toW)
      cmds := s.cmds.tail }

/-- R102, R263: CV_PUSH v with v ≥ 2^FROM raises INVALID_VALUE: ERRL = 1, ECODE = 2, ECMD the command word, nothing else, no push. -/
def Obligations.CvPushOfWideValueRaises : Prop :=
  ∀ (s : State) (v : Byte), s.errl = false → 2 ^ s.fromW ≤ v.toNat →
    ∃ t, exec (.cvPush v) s = .next t ∧ t.errl = true ∧ t.ecode = 2 ∧ t.vok = s.vok ∧
      t.statusReserved = s.statusReserved ∧
      t = { s with status := t.status, ecmd := BitVec.ofNat 16 (0x8000 + v.toNat), cmds := s.cmds.tail }

/-- R104: CV_FLUSH PAD pushes the residual bits at the top of a TO-bit value when there are any, and clears ACC and CNT. -/
def Obligations.CvFlushPadEmitsTheResidue : Prop :=
  ∀ s : State, s.errl = false → s.BcuInRange →
    (s.cnt = 0 → exec (.cvFlush true) s = .next { s with acc := 0, cnt := 0, cmds := s.cmds.tail }) ∧
    (0 < s.cnt.toNat → s.rspq.length + 1 ≤ s.rspDepth →
      exec (.cvFlush true) s = .next { s with
        acc := 0
        cnt := 0
        rspq := s.rspq ++ [BitVec.ofNat 32 (s.acc.toNat % 2 ^ s.cnt.toNat * 2 ^ (s.toW - s.cnt.toNat))]
        cmds := s.cmds.tail })

/-- R104: CV_FLUSH NOPAD clears ACC and CNT when the residue is fewer than FROM bits and all zero, and raises INVALID_PADDING (ECODE 3)
when it is not; it pushes nothing. -/
def Obligations.CvFlushNoPadChecksTheResidue : Prop :=
  ∀ s : State, s.errl = false → s.BcuInRange →
    ((s.cnt.toNat < s.fromW ∧ s.acc.toNat % 2 ^ s.cnt.toNat = 0) →
      exec (.cvFlush false) s = .next { s with acc := 0, cnt := 0, cmds := s.cmds.tail }) ∧
    (¬ (s.cnt.toNat < s.fromW ∧ s.acc.toNat % 2 ^ s.cnt.toNat = 0) →
      ∃ t, exec (.cvFlush false) s = .next t ∧ t.errl = true ∧ t.ecode = 3 ∧ t.vok = s.vok ∧
        t.statusReserved = s.statusReserved ∧
        t = { s with status := t.status, ecmd := 0x9000, cmds := s.cmds.tail })

/-- R25: the stale bits of ACC reach no output: two states that differ only in bits of ACC at CNT and above push the same words and still
differ only there, whatever command runs but RD ACC. -/
def Obligations.StaleBitsReachNoOutput : Prop :=
  ∀ (s t : State) (i : Instr), s.BcuInRange → t.BcuInRange →
    t = { s with acc := t.acc } → t.acc.toNat % 2 ^ s.cnt.toNat = s.acc.toNat % 2 ^ s.cnt.toNat → i ≠ .rd .acc →
    ∃ s' t', exec i s = .next s' ∧ exec i t = .next t' ∧ t' = { s' with acc := t'.acc } ∧
      t'.acc.toNat % 2 ^ s'.cnt.toNat = s'.acc.toNat % 2 ^ s'.cnt.toNat

/-- R105: the command sequence of a conversion, started in the clean state of R215, gives exactly the words of D0's convert, or its error.
The model's choices: the host pops after every command (log entry 14), and convert is the model's transcription of D0's (21). -/
def Obligations.EngineConvertsLikeConvert : Prop :=
  ∀ (s : State) (f t : BitVec 4) (data : List Byte) (pad : Bool), s.Clean → (Instr.cvCfg f t).wellFormed = true →
    (∀ ws, convert (data.map fun v => v.toNat) f.toNat t.toNat pad = .ok ws →
      (issueAll (convertCommands f t data pad) s).1 = .ok (ws.map fun x => BitVec.ofNat 32 x)) ∧
    (convert (data.map fun v => v.toNat) f.toNat t.toNat pad = .error .invalidValue →
      (issueAll (convertCommands f t data pad) s).1 = .error .invalidValueForConvertBits) ∧
    (convert (data.map fun v => v.toNat) f.toNat t.toNat pad = .error .invalidPadding →
      (issueAll (convertCommands f t data pad) s).1 = .error .invalidPaddingData) ∧
    convert (data.map fun v => v.toNat) f.toNat t.toNat pad ≠ .error .illegalCmd

/-- R56, R103, R104: the conversion regroups the bits most significant first. Padded, the output bits are the input bits and fewer than
TO zeros; unpadded, it succeeds exactly when the bits left over are zeros, fewer than TO and fewer than FROM. `convert` is the model's transcription
of D0's (log entry 21). -/
def Obligations.ConvertRegroupsBitsMsbFirst : Prop :=
  ∀ (f t : Nat) (data : List Nat), 1 ≤ f → f ≤ 8 → 1 ≤ t → t ≤ 8 →
    ((∀ v ∈ data, v < 2 ^ f) →
      (∃ ws n, convert data f t true = .ok ws ∧ n < t ∧ (∀ w ∈ ws, w < 2 ^ t) ∧
        streamBits t ws = streamBits f data ++ List.replicate n false) ∧
      ∀ ws, convert data f t false = .ok ws ↔
        (∀ w ∈ ws, w < 2 ^ t) ∧ ∃ n, n < t ∧ n < f ∧ streamBits f data = streamBits t ws ++ List.replicate n false) ∧
    ((∃ v ∈ data, 2 ^ f ≤ v) → ∀ pad, convert data f t pad = .error .invalidValue)

/-- R106: the counts of D0's two uses: ceil(8n/5) symbols for n bytes, floor(5m/8) bytes for m symbols, and bad padding whatever the bits
for m of 1, 3 or 6 modulo 8. -/
def Obligations.ConversionCounts : Prop :=
  (∀ data : List Nat, (∀ v ∈ data, v < 256) → ∃ ws, convert data 8 5 true = .ok ws ∧ ws.length = (8 * data.length + 4) / 5) ∧
  (∀ data ws : List Nat, convert data 5 8 false = .ok ws → ws.length = 5 * data.length / 8) ∧
  ∀ data : List Nat, (∀ v ∈ data, v < 32) → (data.length % 8 = 1 ∨ data.length % 8 = 3 ∨ data.length % 8 = 6) →
    convert data 5 8 false = .error .invalidPadding

/-! ### The LUT (43_charset.md) -/

/-- R51, R171: CS_FWD s pushes the ASCII code of the character at index s of the alphabet and writes no register. -/
def Obligations.CsFwdPushesTheCharacter : Prop :=
  ∀ (s : State) (v : Sym), s.errl = false → s.rspq.length + 1 ≤ s.rspDepth →
    exec (.csFwd v) s = .next { s with
      rspq := s.rspq ++ [BitVec.ofNat 32 ("qpzry9x8gf2tvdw0s3jn54khce6mua7l".toList.getD v.toNat ' ').toNat]
      cmds := s.cmds.tail }

/-- R52, R173: CS_REV b pushes the symbol whose alphabet code is b, and 0xFF when there is none; it sets no flag and writes no register. -/
def Obligations.CsRevPushesTheSymbolOrTheSentinel : Prop :=
  ∀ (s : State) (b : Byte), s.errl = false → s.rspq.length + 1 ≤ s.rspDepth →
    (∀ v : Sym, romFwd v = b →
      exec (.csRev b) s = .next { s with rspq := s.rspq ++ [BitVec.ofNat 32 v.toNat], cmds := s.cmds.tail }) ∧
    ((∀ v : Sym, romFwd v ≠ b) →
      exec (.csRev b) s = .next { s with rspq := s.rspq ++ [0xFF], cmds := s.cmds.tail })

/-- R172: the two tables are inverse to each other. -/
def Obligations.RomTablesAreInverse : Prop :=
  (∀ v : Sym, romRev (romFwd v) = v.setWidth 8) ∧
  ∀ c : Byte, romRev c ≠ 0xFF → romFwd ((romRev c).setWidth 5) = c

/-! ### Control (44_control.md) -/

/-- R190: NOP leaves every register and RSPQ unchanged, latched or not. -/
def Obligations.NopHasNoEffect : Prop :=
  ∀ s : State, exec .nop s = .next { s with cmds := s.cmds.tail }

/-- R192: RD r pushes the register, zero-extended, latched or not, and changes no register; CFG is (TO << 4) | FROM and STATUS is
(ECODE << 4) | (ERRL << 1) | VOK, its reserved bits read as 0 (R27). -/
def Obligations.RdPushesTheRegister : Prop :=
  ∀ (s : State) (r : RdReg), s.rspq.length + 1 ≤ s.rspDepth →
    exec (.rd r) s = .next { s with
      rspq := s.rspq ++ [match r with
        | .chk => BitVec.ofNat 32 s.chk.toNat
        | .acc => BitVec.ofNat 32 s.acc.toNat
        | .cnt => BitVec.ofNat 32 s.cnt.toNat
        | .cfg => BitVec.ofNat 32 (s.toW * 16 + s.fromW)
        | .status => BitVec.ofNat 32 (s.ecode.toNat * 16 + (if s.errl then 2 else 0) + (if s.vok then 1 else 0))
        | .ecmd => BitVec.ofNat 32 s.ecmd.toNat]
      cmds := s.cmds.tail }

/-- R194: CLRERR clears ERRL, ECODE and ECMD, latched or not; VOK and everything else keep their values. -/
def Obligations.ClrerrClearsTheLatch : Prop :=
  ∀ s : State, ∃ t, exec .clrerr s = .next t ∧ t.errl = false ∧ t.ecode = 0 ∧ t.vok = s.vok ∧
    t.statusReserved = s.statusReserved ∧ t = { s with status := t.status, ecmd := 0, cmds := s.cmds.tail }

/-- R196, R292: SRST gives every piece of state its value of R33 and discards RSPQ, latched or not; it differs from a reset only in that
later written commands stay pending. -/
def Obligations.SrstResetsTheEngine : Prop :=
  ∀ s : State,
    exec .srst s = .next { s with
      chk := 1, acc := 0, cnt := 0, cfg := 0x58, status := 0x00, ecmd := 0x0000, rspq := [], cmds := s.cmds.tail } ∧
    exec .srst s = .next { s.hostReset with cmds := s.cmds.tail }

/-! ### Errors and back-pressure (60_exceptions.md, 20_memory.md) -/

/-- R266, R267: while ERRL = 1 every command but NOP, RD, CLRERR and SRST is dropped: accepted at once, with no effect and no push. -/
def Obligations.LatchedCommandsAreDropped : Prop :=
  ∀ (s : State) (i : Instr), s.errl = true → i ≠ .nop → (∀ r, i ≠ .rd r) → i ≠ .clrerr → i ≠ .srst →
    exec i s = .next { s with cmds := s.cmds.tail }

/-- R59, R79: a command waits, with nothing changed, exactly while its k words do not fit; once they fit it completes and pushes exactly k
words (SRST, with k = 0, also empties RSPQ). That the wait is a next state, the unchanged state, is the model's reading (log entry 6). -/
def Obligations.CommandRunsExactlyWhenItsWordsFit : Prop :=
  ∀ (s : State) (i : Instr), i.wellFormed = true → s.BcuInRange →
    (¬ s.Fits (s.pushCount (encode i)) → exec i s = .next s) ∧
    (s.Fits (s.pushCount (encode i)) →
      ∃ t, exec i s = .next t ∧ t.cmds = s.cmds.tail ∧
        (i ≠ .srst → ∃ ws, t.rspq = s.rspq ++ ws ∧ ws.length = s.pushCount (encode i)))

/-- R59, R79: no command pushes more than 8 words; with (8, 5) CV_PUSH pushes at most 2 and with (5, 8) at most 1; 8 is reached. -/
def Obligations.PushCountIsAtMostEight : Prop :=
  (∀ (s : State) (w : CmdWord), s.BcuInRange → s.pushCount w ≤ 8 ∧
    (∀ v : Byte, s.fromW = 8 → s.toW = 5 → s.pushCount (encode (.cvPush v)) ≤ 2) ∧
    (∀ v : Byte, s.fromW = 5 → s.toW = 8 → s.pushCount (encode (.cvPush v)) ≤ 1)) ∧
  ({ State.reset with cfg := 0x18 } : State).pushCount 0x80A5 = 8

/-- R262, R263, R264: a legal command sets the error latch only as INVALID_VALUE of a CV_PUSH or INVALID_PADDING of a CV_FLUSH NOPAD, and
then it has no other effect. -/
def Obligations.LegalCommandsHaveTwoErrorCauses : Prop :=
  ∀ (s t : State) (i : Instr), i.wellFormed = true → s.errl = false → exec i s = .next t → t.errl = true →
    ((∃ v, i = .cvPush v ∧ 2 ^ s.fromW ≤ v.toNat ∧ t.ecode = 2) ∨
      (i = .cvFlush false ∧ (s.fromW ≤ s.cnt.toNat ∨ residue s.toW s.acc.toNat s.cnt.toNat ≠ 0) ∧ t.ecode = 3)) ∧
    t.vok = s.vok ∧ t.statusReserved = s.statusReserved ∧
    t = { s with status := t.status, ecmd := encode i, cmds := s.cmds.tail }

/-- R266, R268, R269: once ERRL is set, a step that is not the engine's CLRERR or SRST and not a reset keeps ERRL, ECODE and ECMD, and
every register of the PME and the BCU with them. -/
def Obligations.LatchHoldsTheFirstError : Prop :=
  ∀ s t : State, s.errl = true → step s = .next t →
    (t.status = s.status ∧ t.ecmd = s.ecmd ∧ t.chk = s.chk ∧ t.acc = s.acc ∧ t.cnt = s.cnt ∧ t.cfg = s.cfg) ∨
    (∃ ts, s.agenda = .reset :: ts) ∨
    ((s.agenda = [] ∨ ∃ ts, s.agenda = .engine :: ts) ∧ (s.cmds.head? = some 0xD000 ∨ s.cmds.head? = some 0xE000))

/-- R32: each register changes only by the commands of its row of the access matrix; RSP_DEPTH, the agenda and the popped words, which are
the model's own fields (log entries 1, 3, 5), by no command. -/
def Obligations.RegistersChangeOnlyByTheirWriters : Prop :=
  ∀ (s t : State) (i : Instr), exec i s = .next t →
    (t.chk ≠ s.chk → i = .pmInit ∨ (∃ v, i = .pmSym v) ∨ (∃ b, i = .pmHrph b) ∨ (∃ b, i = .pmHrpl b) ∨ i = .pmFin ∨ i = .srst) ∧
    ((t.acc ≠ s.acc ∨ t.cnt ≠ s.cnt) →
      (∃ f u, i = .cvCfg f u) ∨ (∃ v, i = .cvPush v) ∨ (∃ p, i = .cvFlush p) ∨ i = .srst) ∧
    (t.cfg ≠ s.cfg → (∃ f u, i = .cvCfg f u) ∨ i = .srst) ∧
    (t.vok ≠ s.vok → i = .pmVfy ∨ i = .srst) ∧
    ((t.errl ≠ s.errl ∨ t.ecode ≠ s.ecode ∨ t.ecmd ≠ s.ecmd) →
      (t.errl = true ∧ s.errl = false) ∨ i = .clrerr ∨ i = .srst) ∧
    (t.rspq ≠ s.rspq →
      i = .pmFin ∨ i = .pmVfy ∨ (∃ v, i = .cvPush v) ∨ i = .cvFlush true ∨ (∃ v, i = .csFwd v) ∨ (∃ b, i = .csRev b) ∨
        (∃ r, i = .rd r) ∨ i = .srst) ∧
    t.rspDepth = s.rspDepth ∧ t.agenda = s.agenda ∧ t.popped = s.popped

/-- R28: no command's behaviour depends on VOK: from two states that differ only in VOK, every command but RD STATUS leaves states that
differ at most in VOK. -/
def Obligations.VokChangesNoBehaviour : Prop :=
  ∀ (s : State) (b : Bool) (i : Instr), i ≠ .rd .status →
    ∃ s' t', exec i s = .next s' ∧ exec i { s with status := statusWithVok s.status b } = .next t' ∧
      t' = { s' with status := t'.status } ∧ t'.errl = s'.errl ∧ t'.ecode = s'.ecode ∧ t'.statusReserved = s'.statusReserved

/-- R30, R63: responses leave in the order they entered and none is lost: a step only appends to the words popped so far followed by the
words in RSPQ, but for an SRST or a reset, which drop the words not yet popped. `popped` is the model's (log entry 5). -/
def Obligations.ResponsesLeaveInOrder : Prop :=
  ∀ s t : State, step s = .next t →
    (∃ ws, t.popped ++ t.rspq = s.popped ++ s.rspq ++ ws) ∨
    (s.clearsQueue = true ∧ t.rspq = [] ∧ t.popped = s.popped)

/-- R61, R290: the status outputs show STATUS at all times, `rsp_data` is the head of RSPQ, and while reset is asserted no command is
accepted and no response offered. -/
def Obligations.PortsShowTheState : Prop :=
  ∀ (s : State) (rstN : Bool),
    (s.ports rstN).stsVok = s.vok ∧ (s.ports rstN).stsErrl = s.errl ∧ (s.ports rstN).stsEcode = s.ecode ∧
    (∀ w ws, s.rspq = w :: ws → (s.ports true).rspValid = true ∧ (s.ports true).rspData = some w) ∧
    (s.rspq = [] → (s.ports true).rspValid = false) ∧
    (s.ports false).cmdReady = false ∧ (s.ports false).rspValid = false

/-- R297, R59: a waiting command completes once the host has popped enough words: after as many pops as RSPQ holds words, the engine's turn
completes the oldest command (the order of turns is the model's agenda, log entry 3). -/
def Obligations.WaitingCommandCompletesAfterPops : Prop :=
  ∀ (s : State) (w : CmdWord) (rest : List CmdWord), s.Inv → s.cmds = w :: rest →
    s.agenda = List.replicate s.rspq.length .popRsp →
    ∃ t, core.run (s.rspq.length + 1) s = .next t ∧ t.cmds = rest

/-! ### The host codec procedure (48_host_codec.md) -/

/-- R60, R215: one command the host issues is a run of the machine: the write, the engine's turn, and one pop per word found. That the host
pops after every command is the model's choice (log entry 14). -/
def Obligations.IssueIsARunOfSteps : Prop :=
  ∀ (s t : State) (w : CmdWord), engineTurn (s.hostWrite w) = .next t →
    core.run (2 + t.rspq.length) { s with agenda := [.writeCmd w, .engine] ++ List.replicate t.rspq.length .popRsp } =
      .next { (issue w s).2 with agenda := [] }

/-- R212, R213: `validate` accepts exactly versions 0 to 16 with a program of 2 to 40 bytes, of 20 or 32 for version 0; a version above 16
is InvalidWitnessVersion whatever the program, and any other failure InvalidProgramSize. -/
def Obligations.ValidateAcceptsWitnessPrograms : Prop :=
  ∀ (version : Nat) (program : List Byte),
    (16 < version → validate version program = .error .invalidWitnessVersion) ∧
    (version ≤ 16 →
      (2 ≤ program.length ∧ program.length ≤ 40 ∧ (version = 0 → program.length = 20 ∨ program.length = 32)) →
      validate version program = .ok ()) ∧
    (version ≤ 16 →
      ¬ (2 ≤ program.length ∧ program.length ≤ 40 ∧ (version = 0 → program.length = 20 ∨ program.length = 32)) →
      validate version program = .error .invalidProgramSize)

/-- R220, R222, R223: from a quiescent engine, encode_segwit of a valid version and program succeeds; the string is the HRP, `'1'`, and
lowercase alphabet characters, of the length of R223. The model's choices: the call starts with SRST (log entry 15), so a quiescent engine is
enough, and the host pops after every command (14). -/
def Obligations.EncodeSucceedsWithTheLength : Prop :=
  ∀ (s : State) (hrp : List Byte) (version : Nat) (program : List Byte), s.Quiescent → validate version program = .ok () →
    ∃ rest t, encodeSegwit hrp version program s = (.ok (hrp ++ [0x31] ++ rest), t) ∧
      rest.length = 1 + (8 * program.length + 4) / 5 + 6 ∧ ∀ b ∈ rest, ∃ v : Sym, romFwd v = b

/-- R243, round trip: decoding an encoded string gives the version and the program back, under the preconditions R243 gives. Each call starts
with SRST (R215; log entry 15). -/
def Obligations.DecodeOfEncodeRoundTrip : Prop :=
  ∀ (s s' : State) (hrp : List Byte) (version : Nat) (program : List Byte), s.Quiescent → s'.Quiescent →
    validate version program = .ok () →
    (∀ b ∈ hrp, 33 ≤ b.toNat ∧ b.toNat ≤ 126 ∧ ¬ (0x41 ≤ b.toNat ∧ b.toNat ≤ 0x5A)) → 1 ≤ hrp.length →
    hrp.length + 2 + (8 * program.length + 4) / 5 + 6 ≤ 90 →
    ∃ text, (encodeSegwit hrp version program s).1 = .ok text ∧
      (decodeSegwit hrp text s').1 = .ok (version, program)

/-- R243, case invariance: decoding a text with no uppercase letter, and the same text with every letter uppercased, gives the same result;
and R298: from a quiescent engine every host call ends with the engine quiescent, whatever its arguments and its result. Of the engine after a
call nothing more is said: R298 lets no claim read CHK, ACC, CNT, CFG or RSPQ there. Each call starts with SRST and pops after every command
(log entries 14, 15). -/
def Obligations.DecodeIgnoresCaseAndCallsEndQuiescent : Prop :=
  (∀ (s : State) (expected text : List Byte), (∀ b ∈ text, ¬ (0x41 ≤ b.toNat ∧ b.toNat ≤ 0x5A)) →
    (decodeSegwit expected (text.map fun b => if 0x61 ≤ b.toNat ∧ b.toNat ≤ 0x7A then b - 0x20 else b) s).1 =
      (decodeSegwit expected text s).1) ∧
  ∀ (s : State) (hrp text : List Byte) (version : Nat) (program : List Byte), s.Quiescent →
    (encodeSegwit hrp version program s).2.Quiescent ∧ (decodeSegwit hrp text s).2.Quiescent

/-- R230: a text of more than 90 bytes is InvalidLength, one of fewer than 8 bytes TooShort, whatever it holds. -/
def Obligations.DecodeRejectsByLengthFirst : Prop :=
  ∀ (s : State) (expected text : List Byte), s.Quiescent →
    (90 < text.length → (decodeSegwit expected text s).1 = .error .invalidLength) ∧
    (text.length < 8 → (decodeSegwit expected text s).1 = .error .tooShort)

/-- R214: no host call ends in ILLEGAL_CMD or in InvalidValueForConvertBits, whatever its arguments. Each call starts with SRST and pops
after every command (log entries 14, 15). -/
def Obligations.HostCallsRaiseNoInterfaceError : Prop :=
  ∀ (s : State) (hrp text : List Byte) (version : Nat) (program : List Byte), s.Quiescent →
    (∀ f, (encodeSegwit hrp version program s).1 ≠ .fault f) ∧
    (encodeSegwit hrp version program s).1 ≠ .error .invalidValueForConvertBits ∧
    (∀ f, (decodeSegwit hrp text s).1 ≠ .fault f) ∧
    (decodeSegwit hrp text s).1 ≠ .error .invalidValueForConvertBits

/-! ### The assembler (30_encoding.md R80, R81) -/

/-- R80: assembling what the disassembler prints of a word gives the word, and the assembler never emits an illegal word for a mnemonic
(a line other than `.word`). -/
def Obligations.AssemblerInvertsDisassembler : Prop :=
  (∀ w : CmdWord, assemble (disassemble w) = some [w]) ∧
  ∀ (l : AsmLine) (ws : List CmdWord), (∀ n, l ≠ .word n) → assemble l = some ws →
    ∀ w ∈ ws, ∃ i, decode w = .command i
end

