-- ==== Sys2Proof/Laws/State.lean ====
section
/-! SUPPORT. One lemma per field of State and per named update (Machine/Ops.lean), each true by unfolding, so that no later proof
unfolds a record update. -/

namespace Sys2Proof.Machine

/-! ### retire -/

@[simp] theorem State.retire_chk (s : State) : (s.retire).chk = s.chk := rfl
@[simp] theorem State.retire_acc (s : State) : (s.retire).acc = s.acc := rfl
@[simp] theorem State.retire_cnt (s : State) : (s.retire).cnt = s.cnt := rfl
@[simp] theorem State.retire_cfg (s : State) : (s.retire).cfg = s.cfg := rfl
@[simp] theorem State.retire_status (s : State) : (s.retire).status = s.status := rfl
@[simp] theorem State.retire_ecmd (s : State) : (s.retire).ecmd = s.ecmd := rfl
@[simp] theorem State.retire_rspq (s : State) : (s.retire).rspq = s.rspq := rfl
@[simp] theorem State.retire_rspDepth (s : State) : (s.retire).rspDepth = s.rspDepth := rfl
@[simp] theorem State.retire_cmds (s : State) : (s.retire).cmds = s.cmds.tail := rfl
@[simp] theorem State.retire_agenda (s : State) : (s.retire).agenda = s.agenda := rfl
@[simp] theorem State.retire_popped (s : State) : (s.retire).popped = s.popped := rfl

/-! ### pushAll -/

@[simp] theorem State.pushAll_chk (s : State) (ws : List RspWord) : (s.pushAll ws).chk = s.chk := rfl
@[simp] theorem State.pushAll_acc (s : State) (ws : List RspWord) : (s.pushAll ws).acc = s.acc := rfl
@[simp] theorem State.pushAll_cnt (s : State) (ws : List RspWord) : (s.pushAll ws).cnt = s.cnt := rfl
@[simp] theorem State.pushAll_cfg (s : State) (ws : List RspWord) : (s.pushAll ws).cfg = s.cfg := rfl
@[simp] theorem State.pushAll_status (s : State) (ws : List RspWord) : (s.pushAll ws).status = s.status := rfl
@[simp] theorem State.pushAll_ecmd (s : State) (ws : List RspWord) : (s.pushAll ws).ecmd = s.ecmd := rfl
@[simp] theorem State.pushAll_rspq (s : State) (ws : List RspWord) : (s.pushAll ws).rspq = s.rspq ++ ws := rfl
@[simp] theorem State.pushAll_rspDepth (s : State) (ws : List RspWord) : (s.pushAll ws).rspDepth = s.rspDepth := rfl
@[simp] theorem State.pushAll_cmds (s : State) (ws : List RspWord) : (s.pushAll ws).cmds = s.cmds := rfl
@[simp] theorem State.pushAll_agenda (s : State) (ws : List RspWord) : (s.pushAll ws).agenda = s.agenda := rfl
@[simp] theorem State.pushAll_popped (s : State) (ws : List RspWord) : (s.pushAll ws).popped = s.popped := rfl

/-! ### raise -/

@[simp] theorem State.raise_chk (s : State) (e : EngineError) (w : CmdWord) : (s.raise e w).chk = s.chk := rfl
@[simp] theorem State.raise_acc (s : State) (e : EngineError) (w : CmdWord) : (s.raise e w).acc = s.acc := rfl
@[simp] theorem State.raise_cnt (s : State) (e : EngineError) (w : CmdWord) : (s.raise e w).cnt = s.cnt := rfl
@[simp] theorem State.raise_cfg (s : State) (e : EngineError) (w : CmdWord) : (s.raise e w).cfg = s.cfg := rfl
@[simp] theorem State.raise_status (s : State) (e : EngineError) (w : CmdWord) : (s.raise e w).status = statusWithError s.status e.code := rfl
@[simp] theorem State.raise_ecmd (s : State) (e : EngineError) (w : CmdWord) : (s.raise e w).ecmd = w := rfl
@[simp] theorem State.raise_rspq (s : State) (e : EngineError) (w : CmdWord) : (s.raise e w).rspq = s.rspq := rfl
@[simp] theorem State.raise_rspDepth (s : State) (e : EngineError) (w : CmdWord) : (s.raise e w).rspDepth = s.rspDepth := rfl
@[simp] theorem State.raise_cmds (s : State) (e : EngineError) (w : CmdWord) : (s.raise e w).cmds = s.cmds.tail := rfl
@[simp] theorem State.raise_agenda (s : State) (e : EngineError) (w : CmdWord) : (s.raise e w).agenda = s.agenda := rfl
@[simp] theorem State.raise_popped (s : State) (e : EngineError) (w : CmdWord) : (s.raise e w).popped = s.popped := rfl

/-! ### clearError -/

@[simp] theorem State.clearError_chk (s : State) : (s.clearError).chk = s.chk := rfl
@[simp] theorem State.clearError_acc (s : State) : (s.clearError).acc = s.acc := rfl
@[simp] theorem State.clearError_cnt (s : State) : (s.clearError).cnt = s.cnt := rfl
@[simp] theorem State.clearError_cfg (s : State) : (s.clearError).cfg = s.cfg := rfl
@[simp] theorem State.clearError_status (s : State) : (s.clearError).status = statusCleared s.status := rfl
@[simp] theorem State.clearError_ecmd (s : State) : (s.clearError).ecmd = 0 := rfl
@[simp] theorem State.clearError_rspq (s : State) : (s.clearError).rspq = s.rspq := rfl
@[simp] theorem State.clearError_rspDepth (s : State) : (s.clearError).rspDepth = s.rspDepth := rfl
@[simp] theorem State.clearError_cmds (s : State) : (s.clearError).cmds = s.cmds := rfl
@[simp] theorem State.clearError_agenda (s : State) : (s.clearError).agenda = s.agenda := rfl
@[simp] theorem State.clearError_popped (s : State) : (s.clearError).popped = s.popped := rfl

/-! ### clearEngine -/

@[simp] theorem State.clearEngine_chk (s : State) : (s.clearEngine).chk = chkInit := rfl
@[simp] theorem State.clearEngine_acc (s : State) : (s.clearEngine).acc = 0 := rfl
@[simp] theorem State.clearEngine_cnt (s : State) : (s.clearEngine).cnt = 0 := rfl
@[simp] theorem State.clearEngine_cfg (s : State) : (s.clearEngine).cfg = 0x58 := rfl
@[simp] theorem State.clearEngine_status (s : State) : (s.clearEngine).status = 0x00 := rfl
@[simp] theorem State.clearEngine_ecmd (s : State) : (s.clearEngine).ecmd = 0x0000 := rfl
@[simp] theorem State.clearEngine_rspq (s : State) : (s.clearEngine).rspq = [] := rfl
@[simp] theorem State.clearEngine_rspDepth (s : State) : (s.clearEngine).rspDepth = s.rspDepth := rfl
@[simp] theorem State.clearEngine_cmds (s : State) : (s.clearEngine).cmds = s.cmds := rfl
@[simp] theorem State.clearEngine_agenda (s : State) : (s.clearEngine).agenda = s.agenda := rfl
@[simp] theorem State.clearEngine_popped (s : State) : (s.clearEngine).popped = s.popped := rfl

/-! ### hostWrite -/

@[simp] theorem State.hostWrite_chk (s : State) (w : CmdWord) : (s.hostWrite w).chk = s.chk := rfl
@[simp] theorem State.hostWrite_acc (s : State) (w : CmdWord) : (s.hostWrite w).acc = s.acc := rfl
@[simp] theorem State.hostWrite_cnt (s : State) (w : CmdWord) : (s.hostWrite w).cnt = s.cnt := rfl
@[simp] theorem State.hostWrite_cfg (s : State) (w : CmdWord) : (s.hostWrite w).cfg = s.cfg := rfl
@[simp] theorem State.hostWrite_status (s : State) (w : CmdWord) : (s.hostWrite w).status = s.status := rfl
@[simp] theorem State.hostWrite_ecmd (s : State) (w : CmdWord) : (s.hostWrite w).ecmd = s.ecmd := rfl
@[simp] theorem State.hostWrite_rspq (s : State) (w : CmdWord) : (s.hostWrite w).rspq = s.rspq := rfl
@[simp] theorem State.hostWrite_rspDepth (s : State) (w : CmdWord) : (s.hostWrite w).rspDepth = s.rspDepth := rfl
@[simp] theorem State.hostWrite_cmds (s : State) (w : CmdWord) : (s.hostWrite w).cmds = s.cmds ++ [w] := rfl
@[simp] theorem State.hostWrite_agenda (s : State) (w : CmdWord) : (s.hostWrite w).agenda = s.agenda := rfl
@[simp] theorem State.hostWrite_popped (s : State) (w : CmdWord) : (s.hostWrite w).popped = s.popped := rfl

/-! ### hostReset -/

@[simp] theorem State.hostReset_chk (s : State) : (s.hostReset).chk = chkInit := rfl
@[simp] theorem State.hostReset_acc (s : State) : (s.hostReset).acc = 0 := rfl
@[simp] theorem State.hostReset_cnt (s : State) : (s.hostReset).cnt = 0 := rfl
@[simp] theorem State.hostReset_cfg (s : State) : (s.hostReset).cfg = 0x58 := rfl
@[simp] theorem State.hostReset_status (s : State) : (s.hostReset).status = 0x00 := rfl
@[simp] theorem State.hostReset_ecmd (s : State) : (s.hostReset).ecmd = 0x0000 := rfl
@[simp] theorem State.hostReset_rspq (s : State) : (s.hostReset).rspq = [] := rfl
@[simp] theorem State.hostReset_rspDepth (s : State) : (s.hostReset).rspDepth = s.rspDepth := rfl
@[simp] theorem State.hostReset_cmds (s : State) : (s.hostReset).cmds = [] := rfl
@[simp] theorem State.hostReset_agenda (s : State) : (s.hostReset).agenda = s.agenda := rfl
@[simp] theorem State.hostReset_popped (s : State) : (s.hostReset).popped = s.popped := rfl

end Sys2Proof.Machine
end

