-- ==== Sys2Proof/Laws/Flags.lean ====
section
/-! SUPPORT. Each change of STATUS writes its own field and leaves the others (10_state.md R27). -/

namespace Sys2Proof.Machine

/-- VOK written: VOK reads back. -/
theorem statusWithVok_vok : ∀ (st : BitVec 8) (b : Bool), (statusWithVok st b).getLsbD 0 = b := by decide

/-- VOK written: ERRL is unchanged. -/
theorem statusWithVok_errl : ∀ (st : BitVec 8) (b : Bool), (statusWithVok st b).getLsbD 1 = st.getLsbD 1 := by decide

/-- VOK written: ECODE is unchanged. -/
theorem statusWithVok_ecode :
    ∀ (st : BitVec 8) (b : Bool), (statusWithVok st b).extractLsb' 4 4 = st.extractLsb' 4 4 := by decide

/-- VOK written: the reserved bits are unchanged. -/
theorem statusWithVok_reserved :
    ∀ (st : BitVec 8) (b : Bool), (statusWithVok st b).extractLsb' 2 2 = st.extractLsb' 2 2 := by decide

/-- An error: VOK is unchanged. -/
theorem statusWithError_vok : ∀ (st : BitVec 8) (c : BitVec 4), (statusWithError st c).getLsbD 0 = st.getLsbD 0 := by decide

/-- An error: ERRL is set. -/
theorem statusWithError_errl : ∀ (st : BitVec 8) (c : BitVec 4), (statusWithError st c).getLsbD 1 = true := by decide

/-- An error: ECODE is the code. -/
theorem statusWithError_ecode : ∀ (st : BitVec 8) (c : BitVec 4), (statusWithError st c).extractLsb' 4 4 = c := by decide

/-- An error: the reserved bits are unchanged. -/
theorem statusWithError_reserved :
    ∀ (st : BitVec 8) (c : BitVec 4), (statusWithError st c).extractLsb' 2 2 = st.extractLsb' 2 2 := by decide

/-- CLRERR: VOK is unchanged. -/
theorem statusCleared_vok : ∀ st : BitVec 8, (statusCleared st).getLsbD 0 = st.getLsbD 0 := by decide

/-- CLRERR: ERRL is clear. -/
theorem statusCleared_errl : ∀ st : BitVec 8, (statusCleared st).getLsbD 1 = false := by decide

/-- CLRERR: ECODE is 0. -/
theorem statusCleared_ecode : ∀ st : BitVec 8, (statusCleared st).extractLsb' 4 4 = 0 := by decide

/-- CLRERR: the reserved bits are unchanged. -/
theorem statusCleared_reserved : ∀ st : BitVec 8, (statusCleared st).extractLsb' 2 2 = st.extractLsb' 2 2 := by decide

/-- Error entry (R263): the latch is set, with the error's code, and VOK is unchanged. -/
theorem State.raise_flags (s : State) (e : EngineError) (w : CmdWord) :
    (s.raise e w).errl = true ∧ (s.raise e w).ecode = e.code ∧ (s.raise e w).vok = s.vok ∧
      (s.raise e w).statusReserved = s.statusReserved :=
  ⟨statusWithError_errl _ _, statusWithError_ecode _ _, statusWithError_vok _ _, statusWithError_reserved _ _⟩

/-- CLRERR (R194): the latch and its code are clear, and VOK is unchanged. -/
theorem State.clearError_flags (s : State) :
    s.clearError.errl = false ∧ s.clearError.ecode = 0 ∧ s.clearError.vok = s.vok ∧
      s.clearError.statusReserved = s.statusReserved :=
  ⟨statusCleared_errl _, statusCleared_ecode _, statusCleared_vok _, statusCleared_reserved _⟩

end Sys2Proof.Machine
end

