-- ==== Sys2Proof/Laws/Ops.lean ====
section
/-! SUPPORT. For each shared operation of Machine/Ops.lean, one lemma that says everything it can do. -/

namespace Sys2Proof.Machine

/-- A command that pushes nothing never waits (R59). -/
@[simp] theorem State.hasRoom_zero (s : State) : s.hasRoom 0 = true := rfl

/-- `hasRoom` is R59's condition. -/
theorem State.hasRoom_iff (s : State) (k : Nat) : s.hasRoom k = true ↔ k = 0 ∨ s.rspq.length + k ≤ s.rspDepth := by
  simp [State.hasRoom]

@[simp] theorem State.pushAll_nil (s : State) : s.pushAll [] = s := by simp [State.pushAll]

/-- Everything `commit` can do: the whole effect at once, or a wait that changes nothing (R58, R59). -/
theorem State.commit_cases (s : State) (ws : List RspWord) (write : State → State) :
    (s.hasRoom ws.length = true ∧ s.commit ws write = .next ((write s).pushAll ws).retire) ∨
      (s.hasRoom ws.length = false ∧ s.commit ws write = .next s) := by
  cases h : s.hasRoom ws.length <;> simp [State.commit, h]

/-- A command that pushes nothing completes (R59). -/
@[simp] theorem State.commit_nil (s : State) (write : State → State) : s.commit [] write = .next (write s).retire := by
  simp [State.commit]

/-- A command whose words fit completes (R59). -/
theorem State.commit_of_room (s : State) (ws : List RspWord) (write : State → State)
    (h : s.rspq.length + ws.length ≤ s.rspDepth) : s.commit ws write = .next ((write s).pushAll ws).retire := by
  have : s.hasRoom ws.length = true := (s.hasRoom_iff _).2 (.inr h)
  simp [State.commit, this]

/-- Everything `unlessLatched` can do: drop the command while the latch is set, else run it (R266). -/
theorem State.unlessLatched_cases (s : State) (k : State → Result) :
    (s.errl = true ∧ s.unlessLatched k = .next s.retire) ∨ (s.errl = false ∧ s.unlessLatched k = k s) := by
  cases h : s.errl <;> simp [State.unlessLatched, h]

theorem State.unlessLatched_clear {s : State} (h : s.errl = false) (k : State → Result) : s.unlessLatched k = k s := by
  simp [State.unlessLatched, h]

theorem State.unlessLatched_set {s : State} (h : s.errl = true) (k : State → Result) :
    s.unlessLatched k = .next s.retire := by
  simp [State.unlessLatched, h]

/-- Everything an illegal word can do: ILLEGAL_CMD, or nothing while the latch is set (R76, R77). -/
theorem execIllegal_cases (w : CmdWord) (s : State) :
    (s.errl = true ∧ execIllegal w s = .next s.retire) ∨
      (s.errl = false ∧ execIllegal w s = .next (s.raise .illegalCmd w)) :=
  s.unlessLatched_cases _

/-- Everything a pop can do: nothing when RSPQ is empty, else its head goes to the host (R60). -/
theorem State.hostPop_cases (s : State) :
    (s.rspq = [] ∧ s.hostPop = s) ∨
      ∃ w ws, s.rspq = w :: ws ∧ s.hostPop = { s with rspq := ws, popped := s.popped ++ [w] } := by
  cases h : s.rspq with
  | nil => simp [State.hostPop, h]
  | cons w ws => exact .inr ⟨w, ws, rfl, by simp [State.hostPop, h]⟩

end Sys2Proof.Machine
end

