-- ==== Sys2Proof/Laws/BitConv.lean ====
section
/-! SUPPORT. The loop of CV_PUSH (41_bitconv.md R102): how many words it emits, which, and what counter it leaves. -/

namespace Sys2Proof.Machine

/-- The counter after the loop is the remainder: "while cnt >= TO: cnt <- cnt - TO" (R102). -/
theorem emitRest_eq (t : Nat) (ht : 1 ≤ t) : ∀ (fuel cnt : Nat), cnt ≤ fuel → emitRest t fuel cnt = cnt % t
  | 0, cnt, h => by
    have : cnt = 0 := by omega
    simp [emitRest, this]
  | fuel + 1, cnt, h => by
    by_cases hc : t ≤ cnt
    · rw [emitRest, if_pos hc, emitRest_eq t ht fuel (cnt - t) (by omega), Nat.mod_eq_sub_mod hc]
    · rw [emitRest, if_neg hc, Nat.mod_eq_of_lt (by omega)]

/-- The loop's words (R102): `floor(cnt/TO)` of them, the (j+1)-th at bit `cnt − (j+1)·TO` of the accumulator. -/
theorem emitWords_eq (t acc : Nat) (ht : 1 ≤ t) :
    ∀ (fuel cnt : Nat), cnt ≤ fuel →
      emitWords t acc fuel cnt = (List.range (cnt / t)).map fun j => (acc >>> (cnt - (j + 1) * t)) % 2 ^ t
  | 0, cnt, h => by
    have : cnt = 0 := by omega
    simp [emitWords, this]
  | fuel + 1, cnt, h => by
    by_cases hc : t ≤ cnt
    · have hd : cnt / t = (cnt - t) / t + 1 := by
        rw [Nat.div_eq_sub_div (by omega) hc]
      rw [emitWords, if_pos hc, emitWords_eq t acc ht fuel (cnt - t) (by omega), hd, List.range_succ_eq_map]
      simp only [List.map_cons, List.map_map]
      congr 1
      · simp [maskBits, Nat.and_two_pow_sub_one_eq_mod]
      · apply List.map_congr_left
        intro j _
        have : cnt - t - (j + 1) * t = cnt - (j + 1 + 1) * t := by
          rw [Nat.sub_sub, Nat.add_mul (j + 1) 1 t, Nat.one_mul, Nat.add_comm]
        simp [this]
    · rw [emitWords, if_neg hc, Nat.div_eq_of_lt (by omega)]
      simp

/-- CV_PUSH pushes `floor((CNT + FROM)/TO)` words (R102). -/
theorem emitWords_length (t acc : Nat) (ht : 1 ≤ t) (cnt : Nat) : (emitWords t acc cnt cnt).length = cnt / t := by
  rw [emitWords_eq t acc ht cnt cnt (Nat.le_refl _)]
  simp

/-- The shifted accumulator as a remainder: the value enters below the old bits, and the mask cuts the top (R102). -/
theorem shiftIn_eq (f t acc v : Nat) (hv : v < 2 ^ f) : shiftIn f t acc v = (acc * 2 ^ f + v) % 2 ^ (f + t - 1) := by
  rw [shiftIn, maskBits, Nat.and_two_pow_sub_one_eq_mod, Nat.shiftLeft_eq, Nat.mul_comm acc,
    ← Nat.two_pow_add_eq_or_of_lt hv]

/-- The residual bits as a value (R104). -/
theorem residue_eq (t acc cnt : Nat) : residue t acc cnt = acc * 2 ^ (t - cnt) % 2 ^ t := by
  rw [residue, maskBits, Nat.and_two_pow_sub_one_eq_mod, Nat.shiftLeft_eq]

/-- The residual bits as a value of the low CNT bits of ACC alone (R104, R25). -/
theorem residue_mod (t acc cnt : Nat) (h : cnt ≤ t) : residue t acc cnt = acc % 2 ^ cnt * 2 ^ (t - cnt) := by
  rw [residue_eq, ← Nat.mul_mod_mul_right, ← pow_add, Nat.add_sub_cancel' h]

/-- The shifted accumulator keeps ACC's bound (R103). -/
theorem shiftIn_lt (f t acc v : Nat) : shiftIn f t acc v < 2 ^ (f + t - 1) := by
  rw [shiftIn, maskBits, Nat.and_two_pow_sub_one_eq_mod]
  exact Nat.mod_lt _ (by positivity)

/-- Every emitted word is a value of TO bits (R102). -/
theorem emitWords_lt (t acc : Nat) : ∀ fuel cnt : Nat, ∀ w ∈ emitWords t acc fuel cnt, w < 2 ^ t
  | 0, cnt, w, h => by simp [emitWords] at h
  | fuel + 1, cnt, w, h => by
    rw [emitWords] at h
    split at h
    · rcases List.mem_cons.1 h with rfl | h
      · rw [maskBits, Nat.and_two_pow_sub_one_eq_mod]; exact Nat.mod_lt _ (by positivity)
      · exact emitWords_lt t acc fuel _ w h
    · simp at h

theorem cfgOf_from : ∀ f t, (cfgOf f t).extractLsb' 0 4 = f := by decide

theorem cfgOf_to : ∀ f t, (cfgOf f t).extractLsb' 4 4 = t := by decide

end Sys2Proof.Machine
end

