-- ==== Sys2Proof/Laws/BitStream.lean ====
section
/-! SUPPORT. The bits of a value, most significant first (20_memory.md R56), and how CV_PUSH's loop cuts them (41_bitconv.md R102). -/

namespace Sys2Proof.Machine

@[simp] theorem msbBits_length (n v : Nat) : (msbBits n v).length = n := by
  induction n with
  | zero => rfl
  | succ n ih => simp [msbBits, ih]

/-- The bits of a value are those of its upper part, then those of its lower part. -/
theorem msbBits_add (a b v : Nat) : msbBits (a + b) v = msbBits a (v >>> b) ++ msbBits b v := by
  induction a with
  | zero => simp [msbBits]
  | succ a ih =>
    rw [Nat.add_right_comm, msbBits, msbBits, ih, Nat.testBit_shiftRight, Nat.add_comm b a]; rfl

/-- Only the low `n` bits of a value count. -/
theorem msbBits_congr {n v w : Nat} (h : v % 2 ^ n = w % 2 ^ n) : msbBits n v = msbBits n w := by
  induction n with
  | zero => rfl
  | succ n ih =>
    have hd : (2 : Nat) ^ n ∣ 2 ^ (n + 1) := pow_dvd_pow 2 (Nat.le_succ n)
    rw [msbBits, msbBits, ih]
    · congr 1
      simpa [Nat.testBit_mod_two_pow] using congrArg (fun x => x.testBit n) h
    · have := congrArg (· % 2 ^ n) h
      rwa [Nat.mod_mod_of_dvd _ hd, Nat.mod_mod_of_dvd _ hd] at this

theorem msbBits_inj {n v w : Nat} (h : msbBits n v = msbBits n w) : v % 2 ^ n = w % 2 ^ n := by
  induction n with
  | zero => simp [Nat.mod_one]
  | succ n ih =>
    simp only [msbBits, List.cons.injEq] at h
    apply Nat.eq_of_testBit_eq
    intro i
    have := congrArg (fun x => x.testBit i) (ih h.2)
    simp only [Nat.testBit_mod_two_pow] at this ⊢
    by_cases h1 : i < n
    · simpa [h1, show i < n + 1 by omega] using this
    · by_cases h2 : i = n
      · subst h2; simp [h.1]
      · simp [show ¬ i < n + 1 by omega]

theorem msbBits_zero (n : Nat) : msbBits n 0 = List.replicate n false := by
  induction n with
  | zero => rfl
  | succ n ih => simp [msbBits, ih, List.replicate_succ]

@[simp] theorem streamBits_nil (t : Nat) : streamBits t [] = [] := rfl

theorem streamBits_cons (t v : Nat) (vs : List Nat) : streamBits t (v :: vs) = msbBits t v ++ streamBits t vs := rfl

theorem streamBits_append (t : Nat) (vs ws : List Nat) :
    streamBits t (vs ++ ws) = streamBits t vs ++ streamBits t ws := by simp [streamBits]

@[simp] theorem streamBits_length (t : Nat) : ∀ vs : List Nat, (streamBits t vs).length = t * vs.length
  | [] => rfl
  | v :: vs => by
    rw [streamBits_cons, List.length_append, msbBits_length, streamBits_length t vs, List.length_cons, Nat.mul_add]
    omega

/-- The loop of CV_PUSH cuts the bits into groups of TO and leaves the rest. -/
theorem msbBits_emit (t acc : Nat) (ht : 1 ≤ t) : ∀ fuel cnt : Nat, cnt ≤ fuel →
    msbBits cnt acc = streamBits t (emitWords t acc fuel cnt) ++ msbBits (emitRest t fuel cnt) acc
  | 0, cnt, h => by
    have : cnt = 0 := by omega
    subst this; simp [emitWords, emitRest]
  | fuel + 1, cnt, h => by
    by_cases hc : t ≤ cnt
    · rw [emitWords, emitRest, if_pos hc, if_pos hc, streamBits_cons, List.append_assoc,
        ← msbBits_emit t acc ht fuel (cnt - t) (by omega)]
      conv_lhs => rw [show cnt = t + (cnt - t) by omega, msbBits_add]
      congr 1
      apply msbBits_congr
      rw [maskBits, Nat.and_two_pow_sub_one_eq_mod, Nat.mod_mod]
    · rw [emitWords, emitRest, if_neg hc, if_neg hc]; rfl

/-- Shifting a value in puts its bits below the unconsumed ones. -/
theorem msbBits_shiftIn (f t acc v cnt : Nat) (hv : v < 2 ^ f) (hc : cnt < t) :
    msbBits (cnt + f) (shiftIn f t acc v) = msbBits cnt acc ++ msbBits f v := by
  rw [shiftIn_eq _ _ _ _ hv, msbBits_congr (w := acc * 2 ^ f + v)
    (Nat.mod_mod_of_dvd _ (pow_dvd_pow 2 (show cnt + f ≤ f + t - 1 by omega))), msbBits_add]
  congr 1
  · rw [Nat.shiftRight_eq_div_pow, Nat.mul_comm, Nat.mul_add_div (by positivity), Nat.div_eq_of_lt hv, Nat.add_zero]
  · apply msbBits_congr; rw [Nat.mul_comm, Nat.mul_add_mod]

/-- The residue's bits are the unconsumed ones, then zeros (R104). -/
theorem msbBits_residue (t acc r : Nat) (h : r ≤ t) :
    msbBits t (residue t acc r) = msbBits r acc ++ List.replicate (t - r) false := by
  rw [residue_mod _ _ _ h]
  conv_lhs => rw [show t = r + (t - r) by omega, msbBits_add]
  rw [show r + (t - r) - r = t - r by omega]
  congr 1
  · rw [Nat.shiftRight_eq_div_pow, Nat.mul_div_cancel _ (by positivity)]
    exact msbBits_congr (Nat.mod_mod _ _)
  · rw [← msbBits_zero]; apply msbBits_congr; simp

end Sys2Proof.Machine
end

