-- ==== Sys2Proof/Laws/Checksum.lean ====
section
/-! SUPPORT. The PME's step and feed (42_checksum.md R131, R132, R134). -/

namespace Sys2Proof.Machine

/-- `step(c, v)` as one expression (R131): the shifted state, the value, and one constant per set syndrome bit. -/
theorem polyStep_eq (c : Chk) (v : Sym) :
    polyStep c v = (c <<< 5) ^^^ v.setWidth 30 ^^^
      (if c.getLsbD 25 then 0x3b6a57b2 else 0) ^^^ (if c.getLsbD 26 then 0x26508e6d else 0) ^^^
      (if c.getLsbD 27 then 0x1ea119fa else 0) ^^^ (if c.getLsbD 28 then 0x3d4233dd else 0) ^^^
      (if c.getLsbD 29 then 0x2a1462b3 else 0) := by
  have hs : ((c.extractLsb' 0 25).setWidth 30 <<< 5 : Chk) = c <<< 5 := by
    ext i hi
    simp only [BitVec.getElem_shiftLeft, BitVec.getElem_setWidth, BitVec.getLsbD_extractLsb']
    by_cases h : i < 5 <;> simp [h]
    · have : i - 5 < 25 := by omega
      simp [this, BitVec.getLsbD_eq_getElem (show i - 5 < 30 by omega)]
  simp only [polyStep, hs, List.range, List.range.loop, List.foldl, genConst, genTable, BitVec.getLsbD_extractLsb']
  simp only [show (0 : Nat) < 5 by decide, show (1 : Nat) < 5 by decide, show (2 : Nat) < 5 by decide,
    show (3 : Nat) < 5 by decide, show (4 : Nat) < 5 by decide, decide_true, Bool.true_and, List.getD_cons_zero,
    List.getD_cons_succ]
  split <;> split <;> split <;> split <;> split <;> simp_all

@[simp] theorem polyFeed_nil (c : Chk) : polyFeed c [] = c := rfl

@[simp] theorem polyFeed_cons (c : Chk) (v : Sym) (vs : List Sym) : polyFeed c (v :: vs) = polyFeed (polyStep c v) vs := rfl

theorem polyFeed_append (c : Chk) (vs ws : List Sym) : polyFeed c (vs ++ ws) = polyFeed (polyFeed c vs) ws := by
  simp [polyFeed, List.foldl_append]

/-- Everything PM_SYM, PM_HRPH and PM_HRPL can do: dropped while latched, else one step of CHK (R134, R136, R138). -/
theorem State.feed_cases (s : State) (v : Sym) :
    (s.errl = true ∧ s.feed v = .next s.retire) ∨
      (s.errl = false ∧ s.feed v = .next { s with chk := polyStep s.chk v, cmds := s.cmds.tail }) := by
  rcases s.unlessLatched_cases (fun s => s.commit [] fun s => { s with chk := polyStep s.chk v }) with ⟨h, e⟩ | ⟨h, e⟩
  · exact .inl ⟨h, e⟩
  · exact .inr ⟨h, by rw [State.feed, e, State.commit_nil]; rfl⟩

@[simp] theorem checksumSymbols_length (c : Chk) : (checksumSymbols c).length = 6 := by simp [checksumSymbols]

theorem hrpHigh_eq : ∀ b : Byte, hrpHigh b = BitVec.ofNat 5 (b.toNat / 32) := by decide

theorem hrpLow_eq : ∀ b : Byte, hrpLow b = BitVec.ofNat 5 (b.toNat % 32) := by decide

end Sys2Proof.Machine
end

