-- ==== Sys2Proof/Laws/Encoding.lean ====
section
/-! SUPPORT. A word and its fields (30_encoding.md R71), and what `decodeRow` answers (R74, R76). -/

namespace Sys2Proof

theorem opField_cmdWord (op x : BitVec 4) (imm : Byte) : opField (cmdWord op x imm) = op := by
  ext i hi
  simp only [opField, cmdWord, BitVec.getElem_extractLsb']
  change (op ++ x ++ imm : BitVec (4 + 4 + 8)).getLsbD (12 + i) = _
  rw [BitVec.getLsbD_append, if_neg (by omega), BitVec.getLsbD_append, if_neg (by omega),
    show 12 + i - 8 - 4 = i by omega, BitVec.getLsbD_eq_getElem hi]

theorem xField_cmdWord (op x : BitVec 4) (imm : Byte) : xField (cmdWord op x imm) = x := by
  ext i hi
  simp only [xField, cmdWord, BitVec.getElem_extractLsb']
  change (op ++ x ++ imm : BitVec (4 + 4 + 8)).getLsbD (8 + i) = _
  rw [BitVec.getLsbD_append, if_neg (by omega), BitVec.getLsbD_append, if_pos (by omega),
    show 8 + i - 8 = i by omega, BitVec.getLsbD_eq_getElem hi]

theorem immField_cmdWord (op x : BitVec 4) (imm : Byte) : immField (cmdWord op x imm) = imm := by
  ext i hi
  simp only [immField, cmdWord, BitVec.getElem_extractLsb']
  change (op ++ x ++ imm : BitVec (4 + 4 + 8)).getLsbD (0 + i) = _
  rw [BitVec.getLsbD_append, if_pos (by omega), Nat.zero_add, BitVec.getLsbD_eq_getElem hi]

/-- A word is its three fields (R71). -/
theorem cmdWord_fields (w : CmdWord) : cmdWord (opField w) (xField w) (immField w) = w := by
  apply BitVec.eq_of_getLsbD_eq
  intro i hi
  simp only [cmdWord, opField, xField, immField]
  change (w.extractLsb' 12 4 ++ w.extractLsb' 8 4 ++ w.extractLsb' 0 8 : BitVec (4 + 4 + 8)).getLsbD i = _
  rw [BitVec.getLsbD_append, BitVec.getLsbD_append]
  simp only [BitVec.getLsbD_extractLsb']
  by_cases h : i < 8
  · simp [h]
  · by_cases h' : i - 8 < 4
    · simp [h, h', show 8 + (i - 8) = i by omega]
    · simp [h, h', show i - 8 - 4 < 4 by omega, show 12 + (i - 8 - 4) = i by omega]

/-- What holds of every triple of fields holds of every word: a check of all words goes by opcode. -/
theorem forall_cmdWord {P : CmdWord → Prop} (h : ∀ op x imm, P (cmdWord op x imm)) (w : CmdWord) : P w := by
  rw [← cmdWord_fields w]; exact h _ _ _

theorem cmdWord_and (a b a' b' : BitVec 4) (c c' : Byte) :
    cmdWord a b c &&& cmdWord a' b' c' = cmdWord (a &&& a') (b &&& b') (c &&& c') := by
  simp only [cmdWord]
  change (a ++ b ++ c : BitVec (4 + 4 + 8)) &&& (a' ++ b' ++ c') = _
  rw [← BitVec.and_append, ← BitVec.and_append]

theorem cmdWord_inj (a b a' b' : BitVec 4) (c c' : Byte) :
    cmdWord a b c = cmdWord a' b' c' ↔ a = a' ∧ b = b' ∧ c = c' := by
  constructor
  · intro h
    exact ⟨by simpa [opField_cmdWord] using congrArg opField h, by simpa [xField_cmdWord] using congrArg xField h,
      by simpa [immField_cmdWord] using congrArg immField h⟩
  · rintro ⟨rfl, rfl, rfl⟩; rfl

/-- Everything `decodeRow` can answer: the row's reading of the word, or an illegal word with an unused bit set. -/
theorem decodeRow_cases (w mask pattern : CmdWord) (d : Decoded) :
    (w &&& mask = pattern ∧ decodeRow w mask pattern d = d) ∨
      (w &&& mask ≠ pattern ∧ decodeRow w mask pattern d = .illegal .unusedBits) := by
  by_cases h : w &&& mask = pattern <;> simp [decodeRow, h]

/-- CV_CFG's word as a number (R101). -/
theorem encode_cvCfg : ∀ f t, encode (.cvCfg f t) = BitVec.ofNat 16 (0x7000 + 16 * t.toNat + f.toNat) := by decide

/-- CV_PUSH's word as a number (R102). -/
theorem encode_cvPush : ∀ v, encode (.cvPush v) = BitVec.ofNat 16 (0x8000 + v.toNat) := by decide

end Sys2Proof
end

