-- ==== Sys2Proof/Laws/HostCodec.lean ====
section
/-! SUPPORT. The host's calls (48_host_codec.md): popping, sequencing, and one issued command. -/

namespace Sys2Proof.Machine

/-- As many pops as RSPQ has words hand all of them over, in order. -/
theorem State.popMany_all (s : State) :
    State.popMany s.rspq.length s = { s with rspq := [], popped := s.popped ++ s.rspq } := by
  obtain ⟨chk, acc, cnt, cfg, status, ecmd, rspq, d, cmds, agenda, popped⟩ := s
  induction rspq generalizing popped with
  | nil => simp [State.popMany]
  | cons w ws ih => simpa [State.popMany, State.hostPop] using ih (popped ++ [w])

@[simp] theorem HostCall.pure_apply {α : Type} (a : α) (s : State) : HostCall.pure a s = (.ok a, s) := rfl

@[simp] theorem HostCall.ofExcept_ok {α : Type} (a : α) (s : State) : HostCall.ofExcept (.ok a) s = (.ok a, s) := rfl

@[simp] theorem HostCall.ofExcept_error {α : Type} (e : HostError) (s : State) :
    (HostCall.ofExcept (.error e) : HostCall α) s = (.error e, s) := rfl

/-- Everything `andThen` can do: go on with the result of the first part, or end with its failure. -/
theorem HostCall.andThen_of_ok {α β : Type} {m : HostCall α} {k : α → HostCall β} {s s' : State} {a : α}
    (h : m s = (.ok a, s')) : m.andThen k s = k a s' := by
  simp [HostCall.andThen, h]

theorem HostCall.andThen_of_error {α β : Type} {m : HostCall α} {k : α → HostCall β} {s s' : State} {e : HostError}
    (h : m s = (.error e, s')) : m.andThen k s = (.error e, s') := by
  simp [HostCall.andThen, h]

theorem HostCall.andThen_of_fault {α β : Type} {m : HostCall α} {k : α → HostCall β} {s s' : State} {f : Fault}
    (h : m s = (.fault f, s')) : m.andThen k s = (.fault f, s') := by
  simp [HostCall.andThen, h]

/-- One issued command (R215): the engine's turn on the written word leaves `t`, and the host pops all of `t`'s RSPQ. -/
theorem issue_of_next {w : CmdWord} {s t : State} (h : engineTurn (s.hostWrite w) = .next t) :
    issue w s = (State.verdict { t with rspq := [], popped := t.popped ++ t.rspq } t.rspq,
      { t with rspq := [], popped := t.popped ++ t.rspq }) := by
  simp [issue, h, stateAfter, State.popMany_all]

/-- A command that completes without an error (R214, R215): the host gets its words, in order. -/
theorem issue_of_exec {i : Instr} {s t : State} (hd : decode (encode i) = .command i) (hc : s.cmds = [])
    (h : exec i { s with cmds := [encode i] } = .next t) (he : t.errl = false) :
    issue (encode i) s = (.ok t.rspq, { t with rspq := [], popped := t.popped ++ t.rspq }) := by
  have hw : s.hostWrite (encode i) = { s with cmds := [encode i] } := by simp [State.hostWrite, hc]
  have ht : engineTurn (s.hostWrite (encode i)) = .next t := by
    rw [hw, engineTurn]; simp only [runWord, hd]; exact h
  rw [issue_of_next ht, State.verdict, if_neg (by simpa [State.errl] using he)]

theorem issueAll_cons_of_ok {i : Instr} {is : List Instr} {s s' s'' : State} {ws ws' : List RspWord}
    (h : issue (encode i) s = (.ok ws, s')) (h' : issueAll is s' = (.ok ws', s'')) :
    issueAll (i :: is) s = (.ok (ws ++ ws'), s'') := by
  rw [issueAll, HostCall.andThen_of_ok h, HostCall.andThen_of_ok h']; rfl

theorem issueAll_append_of_ok {is js : List Instr} {s s' s'' : State} {ws ws' : List RspWord}
    (h : issueAll is s = (.ok ws, s')) (h' : issueAll js s' = (.ok ws', s'')) :
    issueAll (is ++ js) s = (.ok (ws ++ ws'), s'') := by
  induction is generalizing s ws with
  | nil =>
    simp only [issueAll, HostCall.pure_apply, Prod.mk.injEq, CallResult.ok.injEq] at h
    obtain ⟨rfl, rfl⟩ := h
    exact h'
  | cons i is ih =>
    rw [issueAll, HostCall.andThen] at h
    split at h
    · rename_i ws1 s1 h1
      rw [HostCall.andThen] at h
      split at h
      · rename_i ws2 s2 h2
        simp only [HostCall.pure_apply, Prod.mk.injEq, CallResult.ok.injEq] at h
        obtain ⟨rfl, rfl⟩ := h
        rw [List.cons_append, issueAll_cons_of_ok h1 (ih h2), List.append_assoc]
      · cases h
      · cases h
    · cases h
    · cases h

/-- From a clean state every command has room: no command pushes more than 8 words (R59, R79). -/
theorem State.commit_of_clean {s : State} (hs : s.Clean) (w : CmdWord) (ws : List RspWord) (f : State → State)
    (hl : ws.length ≤ 8) :
    State.commit { s with cmds := [w] } ws f = .next ((f { s with cmds := [w] }).pushAll ws).retire := by
  refine State.commit_of_room _ _ _ ?_
  have h1 : s.rspq = [] := hs.2.1
  have h2 : 8 ≤ s.rspDepth := hs.2.2.2
  simp only [h1, List.length_nil]
  omega

end Sys2Proof.Machine
end

