-- ==== Sys2Proof/Laws/PerInstr.lean ====
section
/-! SUPPORT. A statement about every command as syntax: its word stands in its own row of the opcode map (30_encoding.md R74). -/

namespace Sys2Proof.Laws.EncodedInRow

/-- `encode i & mask == match` for the row of `i`: no unused bit is set, and OP is the row's. -/
def Statement (i : Instr) : Prop := encode i &&& i.row.mask = i.row.pattern

theorem nop : Statement .nop := by unfold Statement; decide

theorem pmInit : Statement .pmInit := by unfold Statement; decide

theorem pmSym (s : Sym) : Statement (.pmSym s) := by revert s; unfold Statement; decide

theorem pmHrph (b : Byte) : Statement (.pmHrph b) := by revert b; unfold Statement; decide

theorem pmHrpl (b : Byte) : Statement (.pmHrpl b) := by revert b; unfold Statement; decide

theorem pmFin : Statement .pmFin := by unfold Statement; decide

theorem pmVfy : Statement .pmVfy := by unfold Statement; decide

theorem cvCfg (f t : BitVec 4) : Statement (.cvCfg f t) := by revert f t; unfold Statement; decide

theorem cvPush (v : Byte) : Statement (.cvPush v) := by revert v; unfold Statement; decide

theorem cvFlush (p : Bool) : Statement (.cvFlush p) := by revert p; unfold Statement; decide

theorem csFwd (s : Sym) : Statement (.csFwd s) := by revert s; unfold Statement; decide

theorem csRev (b : Byte) : Statement (.csRev b) := by revert b; unfold Statement; decide

theorem rd (r : RdReg) : Statement (.rd r) := by unfold Statement; cases r <;> decide

theorem clrerr : Statement .clrerr := by unfold Statement; decide

theorem srst : Statement .srst := by unfold Statement; decide

end Sys2Proof.Laws.EncodedInRow
end

