-- ==== Sys2Proof/Laws/Step.lean ====
section
/-! SUPPORT. Everything one command and one step can do, said once: a proof about every step splits `Effect` and `TurnEffect` and unfolds no
meaning. -/

namespace Sys2Proof.Machine

/-- A `commit` that answers `t` has done the whole effect or has waited (20_memory.md R58, R59). -/
theorem State.commit_next {s t : State} {ws : List RspWord} {f : State → State} (h : s.commit ws f = .next t) :
    (s.hasRoom ws.length = true ∧ t = ((f s).pushAll ws).retire) ∨ (s.hasRoom ws.length = false ∧ t = s) := by
  rcases s.commit_cases ws f with ⟨hr, e⟩ | ⟨hr, e⟩ <;> rw [e] at h <;> cases h
  · exact .inl ⟨hr, rfl⟩
  · exact .inr ⟨hr, rfl⟩

/-- An `unlessLatched` that answers `t` has dropped the command or has run it (60_exceptions.md R266). -/
theorem State.unlessLatched_next {s t : State} {k : State → Result} (h : s.unlessLatched k = .next t) :
    (s.errl = true ∧ t = s.retire) ∨ (s.errl = false ∧ k s = .next t) := by
  rcases s.unlessLatched_cases k with ⟨he, e⟩ | ⟨he, e⟩ <;> rw [e] at h
  · cases h; exact .inl ⟨he, rfl⟩
  · exact .inr ⟨he, h⟩

/-- The register writes of a command that executes: from `s` to `u`. -/
inductive Writes (s : State) : Instr → State → Prop
  | nop : Writes s .nop s
  | pmInit : Writes s .pmInit { s with chk := chkInit }
  | pmSym (v : Sym) : Writes s (.pmSym v) { s with chk := polyStep s.chk v }
  | pmHrph (b : Byte) : Writes s (.pmHrph b) { s with chk := polyStep s.chk (hrpHigh b) }
  | pmHrpl (b : Byte) : Writes s (.pmHrpl b) { s with chk := polyStep s.chk (hrpLow b) }
  | pmFin : Writes s .pmFin { s with chk := finalChecksum s.chk }
  | pmVfy : Writes s .pmVfy { s with status := statusWithVok s.status (verifies s.chk targetM) }
  | cvCfg (f t : BitVec 4) : (legalWidth f && legalWidth t) = true →
      Writes s (.cvCfg f t) { s with cfg := cfgOf f t, acc := 0, cnt := 0 }
  | cvPush (v : Byte) (n : Nat) : v.toNat < 2 ^ s.fromW → n = s.cnt.toNat + s.fromW →
      Writes s (.cvPush v) { s with
        acc := BitVec.ofNat 15 (shiftIn s.fromW s.toW s.acc.toNat v.toNat), cnt := BitVec.ofNat 4 (emitRest s.toW n n) }
  | cvFlush (p : Bool) : Writes s (.cvFlush p) { s with acc := 0, cnt := 0 }
  | csFwd (v : Sym) : Writes s (.csFwd v) s
  | csRev (b : Byte) : Writes s (.csRev b) s
  | rd (r : RdReg) : Writes s (.rd r) s
  | clrerr : Writes s .clrerr s.clearError
  | srst : Writes s .srst s.clearEngine

/-- Everything a command can do. -/
inductive Effect (s : State) (i : Instr) : State → Prop
  /-- It waits for RSPQ space (R59). -/
  | wait : Effect s i s
  /-- It is dropped (R266). -/
  | drop : s.errl = true → runsWhileLatched i = false → Effect s i s.retire
  /-- It is an error (R263), whose record its own word can be (R261). -/
  | raise (e : EngineError) : s.errl = false → errorRecord e.code (encode i) = true → Effect s i (s.raise e (encode i))
  /-- It executes (R58). -/
  | run (ws : List RspWord) (u : State) : s.hasRoom ws.length = true → Writes s i u → Effect s i (u.pushAll ws).retire

theorem errorRecord_cvPush : ∀ v : Byte, errorRecord 2 (encode (.cvPush v)) = true := by decide

theorem errorRecord_cvCfg :
    ∀ f t, (legalWidth f && legalWidth t) = false → errorRecord 1 (encode (.cvCfg f t)) = true := by decide

theorem Effect.of_commit {s t : State} {i : Instr} {ws : List RspWord} {f : State → State} (h : s.commit ws f = .next t)
    (hw : Writes s i (f s)) : Effect s i t := by
  rcases State.commit_next h with ⟨hr, rfl⟩ | ⟨_, rfl⟩
  · exact .run ws _ hr hw
  · exact .wait

theorem Effect.of_unlessLatched {s t : State} {i : Instr} {k : State → Result} (h : s.unlessLatched k = .next t)
    (hl : runsWhileLatched i = false) (hk : s.errl = false → k s = .next t → Effect s i t) : Effect s i t := by
  rcases State.unlessLatched_next h with ⟨he, rfl⟩ | ⟨he, e⟩
  · exact .drop he hl
  · exact hk he e

theorem Effect.of_feed {s t : State} {i : Instr} {v : Sym} (h : s.feed v = .next t) (hl : runsWhileLatched i = false)
    (hw : Writes s i { s with chk := polyStep s.chk v }) : Effect s i t :=
  .of_unlessLatched h hl fun _ h => .of_commit h hw

/-- If a command answers a next state, it has waited, was dropped, has raised its error, or has executed. -/
theorem exec_effect {i : Instr} {s t : State} (h : exec i s = .next t) : Effect s i t := by
  unfold exec at h
  cases i with
  | nop => exact .of_commit h .nop
  | pmInit => exact .of_unlessLatched h rfl fun _ h => .of_commit h .pmInit
  | pmSym v => exact .of_feed h rfl (.pmSym v)
  | pmHrph b => exact .of_feed h rfl (.pmHrph b)
  | pmHrpl b => exact .of_feed h rfl (.pmHrpl b)
  | pmFin => exact .of_unlessLatched h rfl fun _ h => .of_commit h .pmFin
  | pmVfy => exact .of_unlessLatched h rfl fun _ h => .of_commit h .pmVfy
  | cvCfg f u =>
    refine .of_unlessLatched h rfl fun he h => ?_
    cases hw : (legalWidth f && legalWidth u)
    · rw [hw, if_neg (by simp)] at h
      cases h; exact .raise _ he (errorRecord_cvCfg f u hw)
    · rw [hw, if_pos rfl] at h
      exact .of_commit h (.cvCfg f u hw)
  | cvPush v =>
    refine .of_unlessLatched h rfl fun he h => ?_
    by_cases hv : 2 ^ s.fromW ≤ v.toNat
    · rw [if_pos hv] at h
      cases h; exact .raise _ he (errorRecord_cvPush v)
    · rw [if_neg hv] at h
      exact .of_commit h (.cvPush v _ (by omega) rfl)
  | cvFlush p =>
    refine .of_unlessLatched h rfl fun he h => ?_
    cases p
    · simp only [Bool.false_eq_true, if_false] at h
      split at h
      · cases h; exact .raise _ he (by decide)
      · exact .of_commit h (.cvFlush false)
    · simp only [if_true] at h
      exact .of_commit h (.cvFlush true)
  | csFwd v => exact .of_unlessLatched h rfl fun _ h => .of_commit h (.csFwd v)
  | csRev b => exact .of_unlessLatched h rfl fun _ h => .of_commit h (.csRev b)
  | rd r => exact .of_commit h (.rd r)
  | clrerr => exact .of_commit h .clrerr
  | srst => exact .of_commit h .srst

/-- Everything one turn can do. -/
inductive TurnEffect (s : State) : State → Prop
  | idle : s.cmds = [] → TurnEffect s s
  | command (i : Instr) (w : CmdWord) (t : State) :
      s.cmds.head? = some w → decode w = .command i → Effect s i t → TurnEffect s t
  | illegal (w : CmdWord) (why : Illegal) :
      s.cmds.head? = some w → decode w = .illegal why → s.errl = false → TurnEffect s (s.raise .illegalCmd w)
  | illegalDropped (w : CmdWord) (why : Illegal) :
      s.cmds.head? = some w → decode w = .illegal why → s.errl = true → TurnEffect s s.retire
  | write (w : CmdWord) : TurnEffect s (s.hostWrite w)
  | pop : TurnEffect s s.hostPop
  | reset : TurnEffect s s.hostReset

theorem engineTurn_effect {s t : State} (h : engineTurn s = .next t) : TurnEffect s t := by
  unfold engineTurn at h
  split at h
  · cases h; exact .idle ‹_›
  · rename_i w ws hc
    unfold runWord at h
    split at h
    · rename_i i hd; exact .command i w t (by simp [hc]) hd (exec_effect h)
    · rename_i y hd
      rcases execIllegal_cases w s with ⟨he, e⟩ | ⟨he, e⟩ <;> rw [e] at h <;> cases h
      · exact .illegalDropped w y (by simp [hc]) hd he
      · exact .illegal w y (by simp [hc]) hd he

/-- If a step answers a next state, it is one turn: the engine's when nothing is on the agenda, else the agenda's first. -/
theorem step_effect {s t : State} (h : step s = .next t) :
    (s.agenda = [] ∧ TurnEffect s t) ∨ ∃ a ts, s.agenda = a :: ts ∧ TurnEffect { s with agenda := ts } t := by
  unfold step nextTurn at h
  split at h
  · exact .inl ⟨‹_›, engineTurn_effect h⟩
  · rename_i a ts ha
    refine .inr ⟨a, ts, ha, ?_⟩
    cases a <;> simp only [takeTurn] at h
    · exact engineTurn_effect h
    · cases h; exact .write _
    · cases h; exact .pop
    · cases h; exact .reset

/-- A run goes on after a step that answers a next state. -/
theorem run_succ (n : Nat) {s t : State} (h : step s = .next t) : core.run (n + 1) s = core.run n t :=
  have key (M : Host.Core) (s t : M.State) (h : M.step s = .next t) : M.run (n + 1) s = M.run n t := by
    simp only [Host.Core.run, h]
  key core s t h

/-! ### The agenda is read by `step` alone -/

/-- An outcome with the agenda of its next state replaced. -/
def withAgenda (a : List Turn) (o : Result) : Result :=
  match o with
  | .next t => .next { t with agenda := a }
  | .fault f => .fault f
  | .refused r => .refused r

theorem commit_agenda (s : State) (ws : List RspWord) (f : State → State) (a : List Turn)
    (hf : f { s with agenda := a } = { f s with agenda := a }) :
    State.commit { s with agenda := a } ws f = withAgenda a (s.commit ws f) := by
  unfold State.commit
  rw [show State.hasRoom { s with agenda := a } ws.length = s.hasRoom ws.length from rfl]
  split
  · rw [hf]; rfl
  · rfl

theorem unlessLatched_agenda (s : State) (k : State → Result) (a : List Turn)
    (hk : k { s with agenda := a } = withAgenda a (k s)) :
    State.unlessLatched { s with agenda := a } k = withAgenda a (s.unlessLatched k) := by
  unfold State.unlessLatched
  rw [show State.errl { s with agenda := a } = s.errl from rfl]
  split
  · rfl
  · exact hk

end Sys2Proof.Machine
end

