-- ==== Sys2Proof/Tests/Slice0.lean ====
section
/-! SUPPORT. The model's own tests: expected values are those that spec/95_test_vectors.md prints, or hand computations from the rule named.
After them a witness for each statement that has hypotheses: a state and operands that meet them together, at boundary values. -/

namespace Sys2Proof.Tests

open Sys2Proof.Machine

/-! ### Helpers -/

/-- The next state of an outcome. -/
def nextOf (o : Result) : Option State :=
  match o with
  | .next s => some s
  | .fault _ => none
  | .refused _ => none

/-- One step of the engine at `s` with `w` as the one written command. -/
def run1 (s : State) (w : CmdWord) : Option State := nextOf (step { s with cmds := [w] })

/-- CHK and the pushed words after one command. -/
def chkRun (c : Chk) (w : CmdWord) : Option (Chk × List RspWord) :=
  (run1 { State.reset with chk := c } w).map fun s => (s.chk, s.rspq)

/-- A state of the BCU: CFG, ACC, CNT. -/
def bcu (cfg : BitVec 8) (acc : BitVec 15) (cnt : BitVec 4) : State :=
  { State.reset with cfg := cfg, acc := acc, cnt := cnt }

/-- The pushed words, ACC and CNT after one command. -/
def bcuRun (s : State) (w : CmdWord) : Option (List RspWord × BitVec 15 × BitVec 4) :=
  (run1 s w).map fun s => (s.rspq, s.acc, s.cnt)

/-- STATUS, ECMD and the pushed words after one command. -/
def errRun (s : State) (w : CmdWord) : Option (BitVec 8 × CmdWord × List RspWord) :=
  (run1 s w).map fun s => (s.status, s.ecmd, s.rspq)

/-- The pushed words after one command from reset. -/
def pushed (w : CmdWord) : Option (List RspWord) := (run1 State.reset w).map fun s => s.rspq

/-- The state after the INVALID_VALUE of 95_test_vectors.md program 4. -/
def latched : State := { State.reset with cfg := 0x85, status := 0x22, ecmd := 0x8020 }

/-- RSPQ with `n` words in it. -/
def filled (n : Nat) : State := { State.reset with rspq := List.replicate n 7 }

/-! ### Well-formedness: each check refuses an ill-formed term (R74, R76 c) -/

theorem test_wf_refuses_from_zero : (Instr.cvCfg 0 5).wellFormed = false := by decide
theorem test_wf_refuses_from_nine : (Instr.cvCfg 9 5).wellFormed = false := by decide
theorem test_wf_refuses_to_zero : (Instr.cvCfg 8 0).wellFormed = false := by decide
theorem test_wf_refuses_to_nine : (Instr.cvCfg 8 9).wellFormed = false := by decide
theorem test_wf_accepts_the_corners :
    (Instr.cvCfg 1 1).wellFormed ∧ (Instr.cvCfg 8 8).wellFormed ∧ (Instr.cvCfg 1 8).wellFormed ∧ (Instr.cvCfg 8 1).wellFormed := by
  decide

/-! ### Decoding: words written out from R71, R72, R74, field by field (OP, X, IMM) -/

theorem test_decode_nop : decode 0b0000000000000000 = .command .nop := by decide
theorem test_decode_pm_init : decode 0b0001000000000000 = .command .pmInit := by decide
theorem test_decode_pm_sym : decode 0b0010000000010110 = .command (.pmSym 22) := by decide
theorem test_decode_pm_hrph : decode 0b0011000011111111 = .command (.pmHrph 0xFF) := by decide
theorem test_decode_pm_hrpl : decode 0b0100000001100001 = .command (.pmHrpl 0x61) := by decide
theorem test_decode_pm_fin : decode 0b0101000000000000 = .command .pmFin := by decide
theorem test_decode_pm_vfy : decode 0b0110000000000000 = .command .pmVfy := by decide
theorem test_decode_cv_cfg : decode 0b0111000010000101 = .command (.cvCfg 5 8) := by decide
theorem test_decode_cv_cfg_corners : decode 0x7011 = .command (.cvCfg 1 1) ∧ decode 0x7088 = .command (.cvCfg 8 8) := by decide
theorem test_decode_cv_push : decode 0b1000000010100101 = .command (.cvPush 0xA5) := by decide
theorem test_decode_cv_flush_pad : decode 0b1001000100000000 = .command (.cvFlush true) := by decide
theorem test_decode_cv_flush_nopad : decode 0b1001000000000000 = .command (.cvFlush false) := by decide
theorem test_decode_cs_fwd : decode 0b1010000000011101 = .command (.csFwd 29) := by decide
theorem test_decode_cs_rev : decode 0b1011000001110001 = .command (.csRev 0x71) := by decide
theorem test_decode_rd : decode 0b1100001000000000 = .command (.rd .cnt) ∧ decode 0xC500 = .command (.rd .ecmd) := by decide
theorem test_decode_clrerr : decode 0b1101000000000000 = .command .clrerr := by decide
theorem test_decode_srst : decode 0b1110000000000000 = .command .srst := by decide

/-- 95_test_vectors.md section 2.4: one illegal word for each cause. -/
theorem test_decode_refuses :
    decode 0xF123 = .illegal .reservedOpcode ∧ decode 0x0100 = .illegal .unusedBits ∧ decode 0x1001 = .illegal .unusedBits ∧
      decode 0x2020 = .illegal .unusedBits ∧ decode 0x3100 = .illegal .unusedBits ∧ decode 0x5001 = .illegal .unusedBits ∧
      decode 0x6100 = .illegal .unusedBits ∧ decode 0x7000 = .illegal .cfgWidth ∧ decode 0x7009 = .illegal .cfgWidth ∧
      decode 0x7090 = .illegal .cfgWidth ∧ decode 0x7188 = .illegal .unusedBits ∧ decode 0x9001 = .illegal .unusedBits ∧
      decode 0x9200 = .illegal .unusedBits ∧ decode 0xA020 = .illegal .unusedBits ∧ decode 0xC001 = .illegal .unusedBits ∧
      decode 0xC600 = .illegal .rdIndex ∧ decode 0xD001 = .illegal .unusedBits ∧ decode 0xE100 = .illegal .unusedBits := by
  decide

theorem test_decode_table_word : decodeTableWord 16 0x9100 = some (.cvFlush true) ∧ decodeTableWord 16 0x7000 = none := by decide

theorem test_fetch_word : (nextOf (step (State.reset.withFetchWord 16 0xA01F))).map (·.rspq) = some [0x6C] := by decide

/-! ### The PME (95_test_vectors.md section 2.1) -/

theorem test_pm_sym_syndrome_bit0 : chkRun 0x02000000 0x2000 = some (0x3B6A57B2, []) := by decide
theorem test_pm_sym_all_ones : chkRun 0x3FFFFFFF 0x201F = some (0x2B326EB4, []) := by decide
theorem test_pm_hrph : chkRun 1 0x30FF = some (0x27, []) := by decide
theorem test_pm_hrpl : chkRun 0x460 0x4061 = some (0x8C01, []) := by decide
theorem test_pm_init : chkRun 0x2BC830A3 0x1000 = some (1, []) := by decide
theorem test_pm_fin_from_reset : chkRun 1 0x5000 = some (0x10A26711, [8, 10, 4, 25, 24, 17]) := by decide
theorem test_pm_fin_of_hrp_a : chkRun 0x8C01 0x5000 = some (0x3E04CE3D, [31, 0, 9, 19, 17, 29]) := by decide
theorem test_pm_vfy_good : (run1 { State.reset with chk := 0x2BC830A3 } 0x6000).map (fun s => (s.status, s.rspq)) = some (0x01, [1]) := by
  decide
theorem test_pm_vfy_bad : (run1 { State.reset with chk := 0x2BC830BE, status := 0x01 } 0x6000).map (fun s => (s.status, s.rspq)) =
    some (0x00, [0]) := by decide

/-! ### The BCU (95_test_vectors.md section 2.2) -/

theorem test_cv_cfg : (run1 (bcu 0x58 0x0BCD 1) 0x7085).map (fun s => (s.cfg, s.acc, s.cnt)) = some (0x85, 0, 0) := by decide
theorem test_cv_cfg_illegal_widths : errRun (bcu 0x58 0x0BCD 1) 0x7090 = some (0x12, 0x7090, []) := by decide
theorem test_cv_push_two_words : bcuRun (bcu 0x58 0x00AB 3) 0x80CD = some ([15, 6], 0x0BCD, 1) := by decide
theorem test_cv_push_too_wide : errRun (bcu 0x85 0 0) 0x8020 = some (0x22, 0x8020, []) := by decide
theorem test_cv_flush_pad : bcuRun (bcu 0x58 0x00FF 3) 0x9100 = some ([28], 0, 0) := by decide
theorem test_cv_flush_nopad_bad : errRun (bcu 0x85 0x01E1 4) 0x9000 = some (0x32, 0x9000, []) := by decide

/-! ### The LUT (95_test_vectors.md section 2.3) -/

theorem test_cs_fwd : pushed 0xA000 = some [0x71] ∧ pushed 0xA00F = some [0x30] := by decide
theorem test_cs_rev : pushed 0xB06C = some [31] ∧ pushed 0xB030 = some [15] := by decide
theorem test_cs_rev_sentinel : pushed 0xB031 = some [0xFF] ∧ pushed 0xB051 = some [0xFF] ∧ pushed 0xB0FF = some [0xFF] := by decide

/-! ### Control (95_test_vectors.md section 2.4, program 4) -/

theorem test_nop_while_latched : run1 latched 0x0000 = some latched := by decide
theorem test_rd_after_reset : pushed 0xC000 = some [1] ∧ pushed 0xC300 = some [0x58] ∧ pushed 0xC400 = some [0] := by decide
theorem test_rd_while_latched : errRun latched 0xC500 = some (0x22, 0x8020, [0x8020]) := by decide
theorem test_clrerr : errRun { latched with status := 0x23 } 0xD000 = some (0x01, 0, []) := by decide
theorem test_srst : run1 { latched with chk := 9, acc := 5, cnt := 3, rspq := [1, 2] } 0xE000 = some State.reset := by decide
theorem test_srst_keeps_later_commands :
    (nextOf (step { State.reset with cmds := [0xE000, 0x0000], rspq := [1] })).map (fun s => (s.cmds, s.rspq)) =
      some ([0x0000], []) := by decide
theorem test_illegal_dropped_while_latched : errRun latched 0xF123 = some (0x22, 0x8020, []) := by decide
theorem test_pm_fin_dropped_while_latched : (run1 { latched with rspq := [1, 2, 3] } 0x5000).map (fun s => (s.chk, s.rspq, s.cmds)) =
    some (1, [1, 2, 3], []) := by decide

/-- Program 6 step 3: three words in RSPQ, and PM_FIN waits. -/
theorem test_pm_fin_waits : (run1 (filled 3) 0x5000).map (fun s => (s.rspq.length, s.cmds)) = some (3, [0x5000]) := by decide

/-- Program 6 step 5: two words in RSPQ, and PM_FIN executes. -/
theorem test_pm_fin_fits : (run1 (filled 2) 0x5000).map (fun s => (s.rspq.length, s.cmds)) = some (8, []) := by decide

/-! ### The host's actions, the host procedure's own checks and the assembler -/

theorem test_host_pop : (nextOf (step { State.reset with agenda := [.popRsp], rspq := [5, 6] })).map (fun s => (s.rspq, s.popped)) =
    some ([6], [5]) := by decide
theorem test_host_reset : nextOf (step { latched with agenda := [.reset], cmds := [0x5000], rspq := [1] }) = some State.reset := by decide

/-- 95_test_vectors.md section 2.5 (R212). -/
theorem test_validate :
    validate 17 (List.replicate 20 0) = .error .invalidWitnessVersion ∧ validate 0 (List.replicate 21 0) = .error .invalidProgramSize ∧
      validate 1 (List.replicate 41 0) = .error .invalidProgramSize ∧ validate 16 (List.replicate 2 0) = .ok () := by decide

/-- 95_test_vectors.md section 2.5 (R230, R231, R233): "bc1qqq", "1pqqqqqqq", "bcpqqqqqqq". -/
theorem test_split_text :
    splitText [0x62, 0x63, 0x31, 0x71, 0x71, 0x71] = .error .tooShort ∧
      splitText (0x31 :: 0x70 :: List.replicate 7 0x71) = .error .emptyHrp ∧
      splitText ([0x62, 0x63, 0x70] ++ List.replicate 7 0x71) = .error .emptySeparatorMissing := by decide

/-- 41_bitconv.md R106's example of 95_test_vectors.md section 2.2: the bytes 0x75, 0x1E. -/
theorem test_convert : convert [0x75, 0x1E] 8 5 true = .ok [14, 20, 15, 0] ∧ convert [14, 20, 15, 0] 5 8 false = .ok [0x75, 0x1E] ∧
    convert [14, 20, 15, 1] 5 8 false = .error .invalidPadding := by decide

/-- 42_checksum.md: hrpExpand of "bc". -/
theorem test_hrp_expand : hrpExpand [0x62, 0x63] = [3, 3, 0, 2, 3] := by decide

/-- 30_encoding.md R80, R81. -/
theorem test_assemble_text :
    assembleText "CV_CFG 8, 5 ; widths".toList = some [0x7058] ∧ assembleText "PM_HRP \"a\"".toList = some [0x3061, 0x2000, 0x4061] ∧
      assembleText "CV_FLUSH NOPAD".toList = some [0x9000] ∧ assembleText "RD ECMD".toList = some [0xC500] ∧
      assembleText "PM_SYM 32".toList = none ∧ assembleText ".word 0xF123".toList = some [0xF123] := by decide

/-! ### Witnesses of hypotheses -/

theorem witness_DecodeInvertsEncode : (Instr.cvCfg 1 8).wellFormed = true ∧ (Instr.cvCfg 8 1).wellFormed = true := by decide

theorem witness_EachLegalWordHasOneReading : decode 0x30FF = .command (.pmHrph 0xFF) ∧ decode 0x7088 = .command (.cvCfg 8 8) := by decide

theorem witness_IllegalWordsRaiseIllegalCmd :
    decode 0xF000 = .illegal .reservedOpcode ∧ decode 0x7009 = .illegal .cfgWidth ∧ State.reset.errl = false := by decide

theorem witness_IllegalWordsAreDroppedWhileLatched : decode 0xC600 = .illegal .rdIndex ∧ latched.errl = true := by decide

theorem witness_StepRunsDecodedCommand :
    ({ State.reset with cmds := [0xC500, 0x0000], agenda := [.engine, .popRsp] } : State).cmds = 0xC500 :: [0x0000] ∧
      State.reset.agenda = [] ∧ decode 0xC500 = .command (.rd .ecmd) ∧ decode 0xF000 = .illegal .reservedOpcode ∧
      ({ State.reset with cmds := [0xF000], agenda := [.engine] } : State).errl = false ∧
      ({ latched with cmds := [0xF000] } : State).agenda = [] ∧ ({ latched with cmds := [0xF000] } : State).errl = true := by decide

theorem witness_HostTurnsDoHostActions :
    ({ State.reset with agenda := [.writeCmd 0x5000] } : State).agenda = .writeCmd 0x5000 :: [] ∧
      ({ filled 1 with agenda := [.popRsp] } : State).agenda = .popRsp :: [] ∧ (filled 1).rspq = 7 :: [] ∧
      ({ State.reset with agenda := [.popRsp] } : State).agenda = .popRsp :: [] ∧ State.reset.rspq = [] := by decide

theorem witness_ResetSetsEveryPieceOfState :
    ({ latched with agenda := [.reset], cmds := [0x5000] } : State).agenda = .reset :: [] := by decide

theorem witness_IdleEngineHoldsItsState :
    State.reset.cmds = [] ∧ State.reset.agenda = [] ∧ ({ State.reset with agenda := [.engine] } : State).agenda = .engine :: [] := by decide

theorem witness_StepKeepsBcuInRange :
    (bcu 0x88 0x7FFF 7).BcuInRange ∧ ∃ t, step { bcu 0x88 0x7FFF 7 with cmds := [0x80FF] } = .next t := ⟨by decide, _, rfl⟩

theorem witness_StepKeepsQueueInDepth :
    (filled 8).QueueInDepth ∧ ∃ t, step { filled 8 with cmds := [0xA000] } = .next t := ⟨by decide, _, rfl⟩

theorem witness_StepKeepsLatchConsistent :
    latched.LatchConsistent ∧ ∃ t, step { latched with cmds := [0xD000] } = .next t := ⟨by decide, _, rfl⟩

theorem witness_unlatched : State.reset.errl = false := by decide

theorem witness_latched : latched.errl = true ∧ latched.Inv := by decide

theorem witness_PmFinPushesSixSymbols : (filled 2).errl = false ∧ (filled 2).rspq.length + 6 ≤ (filled 2).rspDepth ∧
    (0x10A26711 : Chk) =
      polyStep (polyStep (polyStep (polyStep (polyStep (polyStep (filled 2).chk 0) 0) 0) 0) 0) 0 ^^^ 0x2BC830A3 := by decide

theorem witness_CreatedChecksumVerifies : (filled 2).errl = false ∧ (filled 2).rspq.length + 6 ≤ (filled 2).rspDepth := by decide

/-- PM_VFY, CS_FWD, CS_REV and RD: one word fits in the last place of RSPQ. -/
theorem witness_one_word_fits : (filled 7).errl = false ∧ (filled 7).rspq.length + 1 ≤ (filled 7).rspDepth := by decide

theorem witness_CvCfgStartsAConversion : State.reset.errl = false ∧
    (1 ≤ (8 : BitVec 4).toNat ∧ (8 : BitVec 4).toNat ≤ 8 ∧ 1 ≤ (1 : BitVec 4).toNat ∧ (1 : BitVec 4).toNat ≤ 8) ∧
    ¬ (1 ≤ (9 : BitVec 4).toNat ∧ (9 : BitVec 4).toNat ≤ 8 ∧ 1 ≤ (0 : BitVec 4).toNat ∧ (0 : BitVec 4).toNat ≤ 8) := by decide

/-- (8, 1), the conversion that pushes the most words: 8 of them, into an empty RSPQ. -/
theorem witness_CvPushShiftsInAndEmits : (bcu 0x18 0 0).errl = false ∧ (bcu 0x18 0 0).BcuInRange ∧
    (0xFF : Byte).toNat < 2 ^ (bcu 0x18 0 0).fromW ∧ 8 = (bcu 0x18 0 0).cnt.toNat + (bcu 0x18 0 0).fromW ∧
    0xFF = ((bcu 0x18 0 0).acc.toNat * 2 ^ (bcu 0x18 0 0).fromW + (0xFF : Byte).toNat) %
      2 ^ ((bcu 0x18 0 0).fromW + (bcu 0x18 0 0).toW - 1) ∧
    (bcu 0x18 0 0).Fits (8 / (bcu 0x18 0 0).toW) := by decide

theorem witness_CvPushOfWideValueRaises : (bcu 0x85 0 0).errl = false ∧ 2 ^ (bcu 0x85 0 0).fromW ≤ (0x20 : Byte).toNat := by decide

theorem witness_CvFlushPadEmitsTheResidue : (bcu 0x58 0xFF 3).errl = false ∧ (bcu 0x58 0xFF 3).BcuInRange ∧
    0 < (bcu 0x58 0xFF 3).cnt.toNat ∧ (bcu 0x58 0xFF 3).rspq.length + 1 ≤ (bcu 0x58 0xFF 3).rspDepth ∧
    (bcu 0x58 0x7F 0).BcuInRange ∧ (bcu 0x58 0x7F 0).cnt = 0 := by decide

/-- The residue of R104 at its boundary: 4 bits of a (5, 8) conversion, zero or not; and 5 bits, as many as FROM. -/
theorem witness_CvFlushNoPadChecksTheResidue : (bcu 0x85 0x1E0 4).errl = false ∧ (bcu 0x85 0x1E0 4).BcuInRange ∧
    ((bcu 0x85 0x1E0 4).cnt.toNat < (bcu 0x85 0x1E0 4).fromW ∧
      (bcu 0x85 0x1E0 4).acc.toNat % 2 ^ (bcu 0x85 0x1E0 4).cnt.toNat = 0) ∧
    (bcu 0x85 0x1E0 5).BcuInRange ∧
    ¬ ((bcu 0x85 0x1E0 5).cnt.toNat < (bcu 0x85 0x1E0 5).fromW ∧
      (bcu 0x85 0x1E0 5).acc.toNat % 2 ^ (bcu 0x85 0x1E0 5).cnt.toNat = 0) := by decide

theorem witness_StaleBitsReachNoOutput : (bcu 0x58 0x0BCD 1).BcuInRange ∧ (bcu 0x58 0x0001 1).BcuInRange ∧
    bcu 0x58 0x0001 1 = { bcu 0x58 0x0BCD 1 with acc := (bcu 0x58 0x0001 1).acc } ∧
    (bcu 0x58 0x0001 1).acc.toNat % 2 ^ (bcu 0x58 0x0BCD 1).cnt.toNat =
      (bcu 0x58 0x0BCD 1).acc.toNat % 2 ^ (bcu 0x58 0x0BCD 1).cnt.toNat ∧
    Instr.cvPush 0xCD ≠ .rd .acc := by decide

theorem witness_clean : State.reset.Clean ∧ (Instr.cvCfg 8 5).wellFormed = true := by decide

theorem witness_EngineConvertsLikeConvert :
    convert (([14, 20, 15, 0] : List Byte).map fun v => v.toNat) (5 : BitVec 4).toNat (8 : BitVec 4).toNat false = .ok [0x75, 0x1E] ∧
      convert (([0x20] : List Byte).map fun v => v.toNat) (5 : BitVec 4).toNat (8 : BitVec 4).toNat false = .error .invalidValue ∧
      convert (([14, 20, 15, 1] : List Byte).map fun v => v.toNat) (5 : BitVec 4).toNat (8 : BitVec 4).toNat false =
        .error .invalidPadding := by decide

theorem witness_ConvertRegroupsBitsMsbFirst : (∀ v ∈ [31, 0], v < 2 ^ 5) ∧ ∃ v ∈ [31, 32], 2 ^ 5 ≤ v := by decide

theorem witness_ConversionCounts : (∀ v ∈ [0x75, 255], v < 256) ∧ convert [14, 20, 15, 0] 5 8 false = .ok [0x75, 0x1E] ∧
    (∀ v ∈ [1, 2, 31], v < 32) ∧ [1, 2, 31].length % 8 = 3 ∧ [31].length % 8 = 1 ∧ [1, 2, 3, 4, 5, 6].length % 8 = 6 := by decide

theorem witness_CsRevPushesTheSymbolOrTheSentinel : romFwd 31 = 0x6C ∧ ∀ v : Sym, romFwd v ≠ 0x31 := by decide

theorem witness_RdPushesTheRegister : (filled 7).rspq.length + 1 ≤ (filled 7).rspDepth := by decide

theorem witness_LatchedCommandsAreDropped : latched.errl = true ∧ Instr.pmFin ≠ .nop ∧ (∀ r, Instr.pmFin ≠ .rd r) ∧
    Instr.pmFin ≠ .clrerr ∧ Instr.pmFin ≠ .srst := by
  refine ⟨by decide, by decide, ?_, by decide, by decide⟩
  intro r; cases r <;> decide

theorem witness_CommandRunsExactlyWhenItsWordsFit : (filled 3).BcuInRange ∧ ¬ (filled 3).Fits ((filled 3).pushCount (encode .pmFin)) ∧
    (filled 2).BcuInRange ∧ (filled 2).Fits ((filled 2).pushCount (encode .pmFin)) ∧ Instr.pmFin ≠ .srst := by decide

theorem witness_PushCountIsAtMostEight : (bcu 0x58 0 4).BcuInRange ∧ (bcu 0x58 0 4).fromW = 8 ∧ (bcu 0x58 0 4).toW = 5 ∧
    (bcu 0x85 0 7).BcuInRange ∧ (bcu 0x85 0 7).fromW = 5 ∧ (bcu 0x85 0 7).toW = 8 := by decide

theorem witness_LegalCommandsHaveTwoErrorCauses :
    (∃ t, exec (.cvPush 0x20) (bcu 0x85 0 0) = .next t ∧ t.errl = true) ∧
      ∃ t, exec (.cvFlush false) (bcu 0x85 0x1E1 4) = .next t ∧ t.errl = true := ⟨⟨_, rfl, by decide⟩, _, rfl, by decide⟩

theorem witness_LatchHoldsTheFirstError : latched.errl = true ∧ ∃ t, step { latched with cmds := [0x5000] } = .next t :=
  ⟨by decide, _, rfl⟩

theorem witness_RegistersChangeOnlyByTheirWriters :
    (∃ t, exec (.pmSym 0) State.reset = .next t ∧ t.chk ≠ State.reset.chk) ∧
      (∃ t, exec (.cvPush 0xAB) State.reset = .next t ∧ t.cnt ≠ State.reset.cnt ∧ t.rspq ≠ State.reset.rspq) ∧
      (∃ t, exec (.cvCfg 5 8) State.reset = .next t ∧ t.cfg ≠ State.reset.cfg) ∧
      (∃ t, exec .pmVfy { State.reset with status := 0x01 } = .next t ∧ t.vok ≠ true) ∧
      ∃ t, exec .clrerr latched = .next t ∧ t.errl ≠ latched.errl :=
  ⟨⟨_, rfl, by decide⟩, ⟨_, rfl, by decide⟩, ⟨_, rfl, by decide⟩, ⟨_, rfl, by decide⟩, _, rfl, by decide⟩

theorem witness_VokChangesNoBehaviour : Instr.pmVfy ≠ .rd .status ∧ Instr.rd .ecmd ≠ .rd .status := by decide

theorem witness_ResponsesLeaveInOrder : ∃ t, step { filled 2 with agenda := [.popRsp] } = .next t := ⟨_, rfl⟩

theorem witness_PortsShowTheState : (filled 1).rspq = 7 :: [] ∧ State.reset.rspq = [] := by decide

theorem witness_WaitingCommandCompletesAfterPops :
    ({ filled 8 with cmds := [0x5000], agenda := List.replicate 8 .popRsp } : State).Inv ∧
      ({ filled 8 with cmds := [0x5000], agenda := List.replicate 8 .popRsp } : State).agenda =
        List.replicate (filled 8).rspq.length .popRsp := by decide

theorem witness_IssueIsARunOfSteps : ∃ t, engineTurn (State.reset.hostWrite 0x5000) = .next t := ⟨_, rfl⟩

theorem witness_ValidateAcceptsWitnessPrograms : 16 < 17 ∧ 16 ≤ 16 ∧
    (2 ≤ (List.replicate 2 (0 : Byte)).length ∧ (List.replicate 2 (0 : Byte)).length ≤ 40 ∧
      (16 = 0 → (List.replicate 2 (0 : Byte)).length = 20 ∨ (List.replicate 2 (0 : Byte)).length = 32)) ∧
    ¬ (2 ≤ (List.replicate 21 (0 : Byte)).length ∧ (List.replicate 21 (0 : Byte)).length ≤ 40 ∧
      (0 = 0 → (List.replicate 21 (0 : Byte)).length = 20 ∨ (List.replicate 21 (0 : Byte)).length = 32)) := by decide

theorem witness_EncodeSucceedsWithTheLength : (filled 8).Quiescent ∧ validate 16 (List.replicate 40 0) = .ok () := by decide

/-- HRP "a" and a program of 2 bytes; the longest string of 90 bytes has an HRP of 18 bytes and a program of 40. -/
theorem witness_DecodeOfEncodeRoundTrip : latched.Quiescent ∧ State.reset.Quiescent ∧ validate 16 (List.replicate 40 0) = .ok () ∧
    (∀ b ∈ List.replicate 18 (0x61 : Byte), 33 ≤ b.toNat ∧ b.toNat ≤ 126 ∧ ¬ (0x41 ≤ b.toNat ∧ b.toNat ≤ 0x5A)) ∧
    1 ≤ (List.replicate 18 (0x61 : Byte)).length ∧
    (List.replicate 18 (0x61 : Byte)).length + 2 + (8 * (List.replicate 40 (0 : Byte)).length + 4) / 5 + 6 ≤ 90 := by decide

theorem witness_DecodeIgnoresCaseAndCallsEndQuiescent :
    (∀ b ∈ ([0x62, 0x63, 0x31, 0x7E] : List Byte), ¬ (0x41 ≤ b.toNat ∧ b.toNat ≤ 0x5A)) ∧ (filled 8).Quiescent ∧
      latched.Quiescent := by decide

theorem witness_DecodeRejectsByLengthFirst : State.reset.Quiescent ∧ 90 < (List.replicate 91 (0x61 : Byte)).length ∧
    (List.replicate 7 (0x61 : Byte)).length < 8 := by decide

theorem witness_HostCallsRaiseNoInterfaceError : latched.Quiescent := by decide

theorem witness_AssemblerInvertsDisassembler :
    (∀ n, AsmLine.pmSym 31 ≠ .word n) ∧ assemble (.pmSym 31) = some [0x201F] := ⟨(fun n h => by cases h), by decide⟩

end Sys2Proof.Tests
end

section
/-! The engine's turn on the oldest written word (20_memory.md R60, R63; 30_encoding.md R76, R77). -/

namespace Sys2Proof.Machine

/-- With no host action due (00_scope.md R14), a step is the engine's turn, with its entry taken off the agenda. -/
theorem step_of_engine_due {s : State} (h : s.agenda = [] ∨ ∃ ts, s.agenda = .engine :: ts) :
    step s = engineTurn { s with agenda := s.agenda.tail } := by
  obtain h | ⟨ts, h⟩ := h
  · have hs : s = { s with agenda := s.agenda.tail } := by cases s; cases h; rfl
    calc step s = engineTurn s := by simp only [step, nextTurn, h]
      _ = engineTurn { s with agenda := s.agenda.tail } := congrArg engineTurn hs
  · simp only [step, nextTurn, h, takeTurn, List.tail_cons]

theorem engineTurn_of_cons {s : State} {w : CmdWord} {rest : List CmdWord} (h : s.cmds = w :: rest) :
    engineTurn s = runWord w s := by
  simp only [engineTurn, h]

theorem runWord_of_command {w : CmdWord} {i : Instr} (h : decode w = .command i) (s : State) :
    runWord w s = exec i s := by
  simp only [runWord, h]

theorem runWord_of_illegal {w : CmdWord} {why : Illegal} (h : decode w = .illegal why) (s : State) :
    runWord w s = execIllegal w s := by
  simp only [runWord, h]

theorem runWord_of_illegal_unlatched {w : CmdWord} {why : Illegal} (h : decode w = .illegal why) {s : State}
    (he : s.errl = false) : runWord w s = .next (s.raise .illegalCmd w) :=
  (runWord_of_illegal h s).trans (State.unlessLatched_clear he _)

theorem runWord_of_illegal_latched {w : CmdWord} {why : Illegal} (h : decode w = .illegal why) {s : State}
    (he : s.errl = true) : runWord w s = .next s.retire :=
  (runWord_of_illegal h s).trans (State.unlessLatched_set he _)

/-- The frame of an error (60_exceptions.md R263): STATUS, ECMD and the pending commands, and nothing else. -/
theorem State.raise_frame (s : State) (e : EngineError) (w : CmdWord) :
    s.raise e w = { s with status := (s.raise e w).status, ecmd := w, cmds := s.cmds.tail } := rfl

end Sys2Proof.Machine
end

section
namespace Sys2Proof

open Sys2Proof.Machine

/-- Settles O7: the due step is the engine's turn, which runs the head of the pending commands, and the meaning of that word follows from
its decoding and, for an illegal word, from the error latch. -/
theorem stepRunsDecodedCommand : Obligations.StepRunsDecodedCommand := by
  intro s w rest hdue hcmds
  have hstep : step s = runWord w { s with agenda := s.agenda.tail } :=
    (step_of_engine_due hdue).trans (engineTurn_of_cons hcmds)
  obtain rfl : rest = s.cmds.tail := by simp only [hcmds, List.tail_cons]
  refine ⟨hstep, fun i hi => hstep.trans (runWord_of_command hi _), fun why hill => ⟨fun he => ?_, fun he => ?_⟩⟩
  · obtain ⟨herrl, hecode, hvok, hres⟩ := State.raise_flags { s with agenda := s.agenda.tail } .illegalCmd w
    exact ⟨_, hstep.trans (runWord_of_illegal_unlatched hill he), herrl, hecode, hvok, hres,
      State.raise_frame _ _ _⟩
  · exact hstep.trans (runWord_of_illegal_latched hill he)

end Sys2Proof
end

section
/-! An invariant of every step from four facts about its predicate. -/

namespace Sys2Proof.Machine

/-- A pop changes RSPQ and the words the host holds, and nothing else (20_memory.md R60). -/
theorem State.hostPop_frame (s : State) :
    s.hostPop = { s with rspq := s.hostPop.rspq, popped := s.hostPop.popped } := by
  obtain ⟨-, h⟩ | ⟨w, ws, -, h⟩ := s.hostPop_cases <;> rw [h]

/-- What a command keeps, if its register writes, its pushes and its error keep it. -/
theorem Effect.keeps {P : State → Prop}
    (hports : ∀ (s : State) (cs : List CmdWord) (ts : List Turn), P s → P { s with cmds := cs, agenda := ts })
    (hraise : ∀ (s : State) (e : EngineError) (w : CmdWord),
      s.errl = false → errorRecord e.code w = true → P s → P (s.raise e w))
    (hrun : ∀ (s u : State) (i : Instr) (ws : List RspWord),
      Writes s i u → s.hasRoom ws.length = true → P s → P (u.pushAll ws))
    {s t : State} {i : Instr} (h : Effect s i t) (hs : P s) : P t := by
  cases h with
  | wait => exact hs
  | drop => exact hports s s.cmds.tail s.agenda hs
  | raise e he hr => exact hraise s e _ he hr hs
  | run ws u hroom hw => exact hports _ _ _ (hrun s u i ws hw hroom hs)

/-- A predicate that does not look at the command port or the agenda is an invariant of `step` when error entry, the writes and
pushes of a command that executes, and a pop keep it: a reset writes what SRST writes (70_reset_and_hazards.md R290). -/
theorem step_keeps {P : State → Prop}
    (hports : ∀ (s : State) (cs : List CmdWord) (ts : List Turn), P s → P { s with cmds := cs, agenda := ts })
    (hraise : ∀ (s : State) (e : EngineError) (w : CmdWord),
      s.errl = false → errorRecord e.code w = true → P s → P (s.raise e w))
    (hrun : ∀ (s u : State) (i : Instr) (ws : List RspWord),
      Writes s i u → s.hasRoom ws.length = true → P s → P (u.pushAll ws))
    (hpop : ∀ s : State, P s → P s.hostPop)
    {s t : State} (hs : P s) (h : step s = .next t) : P t := by
  have hturn {s : State} (hs : P s) (h : TurnEffect s t) : P t := by
    cases h with
    | idle => exact hs
    | command i w _ _ _ he => exact he.keeps hports hraise hrun hs
    | illegal w why _ hd he => exact hraise s .illegalCmd w he (by simp [errorRecord, EngineError.code, hd, Decoded.instr?]) hs
    | illegalDropped => exact hports s s.cmds.tail s.agenda hs
    | write w => exact hports s (s.cmds ++ [w]) s.agenda hs
    | pop => exact hpop s hs
    | reset => exact hports _ [] s.agenda (hrun s s.clearEngine .srst [] .srst s.hasRoom_zero hs)
  obtain ⟨-, ht⟩ | ⟨_, ts, -, ht⟩ := step_effect h
  · exact hturn hs ht
  · exact hturn (hports s s.cmds ts hs) ht

end Sys2Proof.Machine
end

section
/-! The register writes of the commands keep the invariants of 10_state.md. -/

namespace Sys2Proof.Machine

theorem legalWidth_iff (w : BitVec 4) : legalWidth w = true ↔ 1 ≤ w.toNat ∧ w.toNat ≤ 8 := by
  simp [legalWidth]

/-- CV_CFG, CV_PUSH, CV_FLUSH and SRST are the writers of the BCU's registers; each leaves them in range (R24, R26, R103). -/
theorem Writes.bcuInRange {s u : State} {i : Instr} (h : Writes s i u) (hs : s.BcuInRange) : u.BcuInRange := by
  obtain ⟨hf, ht, hc, ha⟩ := id hs
  cases h with
  | cvCfg f t hw =>
    rw [Bool.and_eq_true, legalWidth_iff, legalWidth_iff] at hw
    simp only [State.BcuInRange, State.fromW, State.toW, cfgOf_from, cfgOf_to]
    exact ⟨hw.1, hw.2, hw.2.1, by positivity⟩
  | cvPush v n hv hn =>
    refine ⟨hf, ht, ?_, ?_⟩
    · rw [emitRest_eq s.toW ht.1 n n le_rfl]
      exact (Nat.mod_le _ _).trans_lt (Nat.mod_lt _ ht.1)
    · exact (Nat.mod_le _ _).trans_lt (shiftIn_lt _ _ _ _)
  | cvFlush p => exact ⟨hf, ht, ht.1, by positivity⟩
  | srst => exact (by decide : State.reset.BcuInRange)
  | _ => exact hs

/-- Writing VOK leaves the error latch, its code and the reserved bits (R27). -/
theorem State.withVok_flags (s : State) (b : Bool) :
    State.errl { s with status := statusWithVok s.status b } = s.errl ∧
      State.ecode { s with status := statusWithVok s.status b } = s.ecode ∧
      State.statusReserved { s with status := statusWithVok s.status b } = s.statusReserved :=
  ⟨statusWithVok_errl _ _, statusWithVok_ecode _ _, statusWithVok_reserved _ _⟩

/-- PM_VFY, CLRERR and SRST are the writers of STATUS and ECMD outside error entry; each leaves the two in agreement (R27, R29). -/
theorem Writes.latchConsistent {s u : State} {i : Instr} (h : Writes s i u) (hs : s.LatchConsistent) : u.LatchConsistent := by
  cases h with
  | pmVfy =>
    obtain ⟨he, hc, hr⟩ := s.withVok_flags (verifies s.chk targetM)
    rw [State.LatchConsistent, he, hc, hr]
    exact hs
  | clrerr =>
    obtain ⟨he, hc, -, hr⟩ := s.clearError_flags
    exact ⟨hr.trans hs.1, fun _ => ⟨hc, rfl⟩, fun h => absurd (he.symm.trans h) (by decide)⟩
  | srst => exact (by decide : State.reset.LatchConsistent)
  | _ => exact hs

/-- Error entry leaves its own record in ECODE and ECMD (60_exceptions.md R261, R263). -/
theorem State.raise_latchConsistent {s : State} {e : EngineError} {w : CmdWord} (hw : errorRecord e.code w = true)
    (hs : s.LatchConsistent) : (s.raise e w).LatchConsistent := by
  obtain ⟨he, hc, -, hr⟩ := s.raise_flags e w
  exact ⟨hr.trans hs.1, fun h => absurd (he.symm.trans h) (by decide), fun _ => by rw [hc]; exact hw⟩

/-- The register writes of a command touch no word of RSPQ, but for SRST, which empties it (R30, 44_control.md R196). -/
theorem Writes.rspq {s u : State} {i : Instr} (h : Writes s i u) : u.rspq = s.rspq ∨ (i = .srst ∧ u.rspq = []) := by
  cases h with
  | srst => exact .inr ⟨rfl, rfl⟩
  | _ => exact .inl rfl

/-- The capacity, the agenda and the popped words are no register: no command writes them (R20). -/
theorem Writes.modelFields {s u : State} {i : Instr} (h : Writes s i u) :
    u.rspDepth = s.rspDepth ∧ u.agenda = s.agenda ∧ u.popped = s.popped := by
  cases h <;> exact ⟨rfl, rfl, rfl⟩

/-- The pushes of a command that executes fit in RSPQ (20_memory.md R59). -/
theorem Writes.queueInDepth {s u : State} {i : Instr} {ws : List RspWord} (h : Writes s i u)
    (hroom : s.hasRoom ws.length = true) (hs : s.QueueInDepth) : (u.pushAll ws).QueueInDepth := by
  obtain ⟨hmin, hlen⟩ := hs
  have hq : u.rspq.length ≤ s.rspq.length := by
    obtain hq | ⟨-, hq⟩ := h.rspq <;> simp [hq]
  have hfit := (s.hasRoom_iff _).1 hroom
  refine ⟨hmin.trans_eq h.modelFields.1.symm, ?_⟩
  rw [State.pushAll_rspq, State.pushAll_rspDepth, List.length_append, h.modelFields.1]
  omega

theorem State.hostPop_queueInDepth {s : State} (hs : s.QueueInDepth) : s.hostPop.QueueInDepth := by
  obtain ⟨-, h⟩ | ⟨w, ws, hq, h⟩ := s.hostPop_cases
  · rwa [h]
  · rw [h]
    rw [State.QueueInDepth, hq] at hs
    exact ⟨hs.1, (Nat.le_succ _).trans hs.2⟩

end Sys2Proof.Machine
end

section
namespace Sys2Proof

open Sys2Proof.Machine

/-- Settles O13: error entry and a pop leave the BCU's registers alone, and the commands that write them leave them in range. -/
theorem stepKeepsBcuInRange : Obligations.StepKeepsBcuInRange := by
  intro s t hs
  refine step_keeps (P := State.BcuInRange) (fun _ _ _ h => h) (fun _ _ _ _ _ h => h)
    (fun _ _ _ _ hw _ h => hw.bcuInRange h) (fun s h => ?_) hs
  rw [s.hostPop_frame]; exact h

/-- Settles O15: each error leaves its own record, and the commands that write STATUS or ECMD keep or clear the record as a whole. -/
theorem stepKeepsLatchConsistent : Obligations.StepKeepsLatchConsistent := by
  intro s t hs
  refine step_keeps (P := State.LatchConsistent) (fun _ _ _ h => h) (fun _ _ _ _ hw h => State.raise_latchConsistent hw h)
    (fun _ _ _ _ hw _ h => hw.latchConsistent h) (fun s h => ?_) hs
  rw [s.hostPop_frame]; exact h

/-- Settles O14: only a command that executes adds words to RSPQ, and it executes once they fit. -/
theorem stepKeepsQueueInDepth : Obligations.StepKeepsQueueInDepth := by
  intro s t hstep
  refine ⟨?_, fun hs => ?_⟩
  · refine step_keeps (P := fun u => u.rspDepth = s.rspDepth) (fun _ _ _ h => h) (fun _ _ _ _ _ h => h)
      (fun _ _ _ _ hw _ h => hw.modelFields.1.trans h) (fun u h => ?_) rfl hstep
    rw [u.hostPop_frame]; exact h
  · exact step_keeps (P := State.QueueInDepth) (fun _ _ _ h => h) (fun _ _ _ _ _ h => h)
      (fun _ _ _ _ hw hroom h => hw.queueInDepth hroom h) (fun _ h => State.hostPop_queueInDepth h) hs hstep

/-- Settles O9: a reset turn is `State.hostReset`, whose register values, like those of `State.reset`, are the table of R33. -/
theorem resetSetsEveryPieceOfState : Obligations.ResetSetsEveryPieceOfState := by
  refine ⟨fun s ts h => ?_, rfl, rfl, rfl, rfl, rfl, rfl, rfl, rfl⟩
  have hturn : step s = .next (State.hostReset { s with agenda := ts }) := by simp only [step, nextTurn, h, takeTurn]
  exact hturn

/-- Settles O12: the three parts are closed facts about the reset values (R33). -/
theorem resetStateMeetsTheInvariants : Obligations.ResetStateMeetsTheInvariants := by
  have hbcu : State.reset.BcuInRange := by decide
  have hqueue : State.reset.QueueInDepth := by decide
  have hlatch : State.reset.LatchConsistent := by decide
  exact ⟨hbcu, hqueue, hlatch⟩

end Sys2Proof
end

section
/-! What a command and an engine's turn change, register by register (10_state.md R32), and which words they leave in RSPQ (R30). -/

namespace Sys2Proof

theorem decodeRow_eq_command {w mask pattern : CmdWord} {d : Decoded} {i : Instr}
    (h : decodeRow w mask pattern d = .command i) : w &&& mask = pattern ∧ d = .command i := by
  obtain ⟨hm, e⟩ | ⟨-, e⟩ := decodeRow_cases w mask pattern d <;> rw [e] at h
  · exact ⟨hm, h⟩
  · cases h

/-- SRST has no operands, so its word is the only one that decodes to it (30_encoding.md R74): no other row reads as SRST. -/
theorem eq_encode_of_decode_srst {w : CmdWord} (h : decode w = .command .srst) : w = encode .srst := by
  have hrow : w &&& 0xFFFF = 0xE000 := by
    unfold decode at h
    split at h
    case h_15 => exact (decodeRow_eq_command h).1
    case h_16 => cases h
    all_goals
      have hother := (decodeRow_eq_command h).2
      grind
  exact (BitVec.and_allOnes (w := 16)).symm.trans hrow

end Sys2Proof

namespace Sys2Proof.Machine

theorem exec_srst (s : State) : exec .srst s = .next s.clearEngine.retire := s.commit_nil _

/-- Let `g` read nothing that error entry, a push or the end of a command changes. Then a command leaves `g`'s reading, unless `W`
holds, when the register writes of the command do. -/
theorem Effect.read_eq_or {α : Type} {W : Prop} {s t : State} {i : Instr} (g : State → α)
    (hraise : ∀ (e : EngineError) (w : CmdWord), g (s.raise e w) = g s)
    (hdone : ∀ (u : State) (ws : List RspWord), g (u.pushAll ws).retire = g u)
    (hwrites : ∀ u : State, Writes s i u → g u = g s ∨ W) (h : Effect s i t) : g t = g s ∨ W := by
  cases h with
  | wait => exact .inl rfl
  | drop => exact .inl (by simpa using hdone s [])
  | raise e => exact .inl (hraise e _)
  | run ws u _ hw => rw [hdone]; exact hwrites u hw

/-- The model's own fields are no registers: no command changes them (R32). -/
theorem Effect.modelFields {s t : State} {i : Instr} (h : Effect s i t) :
    t.rspDepth = s.rspDepth ∧ t.agenda = s.agenda ∧ t.popped = s.popped := by
  have hkept := h.read_eq_or (W := False) (fun u => (u.rspDepth, u.agenda, u.popped)) (fun _ _ => rfl) (fun _ _ => rfl)
    fun u hw => by
      obtain ⟨hd, ha, hp⟩ := hw.modelFields
      exact .inl (by rw [hd, ha, hp])
  simpa using hkept

/-- A command other than SRST only appends to RSPQ, and takes no word out of it. -/
theorem Effect.appends {s t : State} {i : Instr} (h : Effect s i t) (hi : i ≠ .srst) : s.rspq <+: t.rspq := by
  cases h with
  | run ws u _ hw =>
    obtain hq | ⟨hsrst, -⟩ := hw.rspq
    · exact ⟨ws, congrArg (· ++ ws) hq.symm⟩
    · exact absurd hsrst hi
  | _ => exact ⟨[], List.append_nil _⟩

/-- The engine's turn appends to RSPQ, or it is an SRST, which empties RSPQ; the popped words stay. -/
theorem engineTurn_responses {s t : State} (h : engineTurn s = .next t) :
    t.popped = s.popped ∧ (s.rspq <+: t.rspq ∨ (s.cmds.head? = some (encode .srst) ∧ t.rspq = [])) := by
  cases hc : s.cmds with
  | nil =>
    simp only [engineTurn, hc] at h
    cases h; exact ⟨rfl, .inl ⟨[], List.append_nil _⟩⟩
  | cons w rest =>
    rw [engineTurn_of_cons hc] at h
    cases hd : decode w with
    | illegal why =>
      rw [runWord_of_illegal hd] at h
      obtain ⟨-, e⟩ | ⟨-, e⟩ := execIllegal_cases w s <;> rw [e] at h <;> cases h <;>
        exact ⟨rfl, .inl ⟨[], List.append_nil _⟩⟩
    | command i =>
      rw [runWord_of_command hd] at h
      refine ⟨(exec_effect h).modelFields.2.2, ?_⟩
      by_cases hi : i = .srst
      · subst hi
        rw [exec_srst] at h
        cases h
        exact .inr ⟨by rw [eq_encode_of_decode_srst hd, List.head?_cons], rfl⟩
      · exact .inl ((exec_effect h).appends hi)

/-- A pop moves the oldest word of RSPQ behind the popped words: the whole sequence stays. -/
theorem State.hostPop_responses (s : State) : s.hostPop.popped ++ s.hostPop.rspq = s.popped ++ s.rspq := by
  obtain ⟨-, h⟩ | ⟨w, ws, hq, h⟩ := s.hostPop_cases <;> rw [h]
  rw [hq, List.append_assoc, List.singleton_append]

theorem State.clearsQueue_of_srst {s : State} (hdue : s.agenda = [] ∨ ∃ ts, s.agenda = .engine :: ts)
    (hc : s.cmds.head? = some (encode .srst)) : s.clearsQueue = true := by
  obtain h | ⟨ts, h⟩ := hdue <;> simp only [State.clearsQueue, h, hc, beq_self_eq_true]

end Sys2Proof.Machine
end

section
/-! The rows of the access matrix (10_state.md R32), as what the register writes of a command change. -/

namespace Sys2Proof.Machine

variable {s u : State} {i : Instr}

theorem Writes.chk_writer (h : Writes s i u) : u.chk = s.chk ∨
    (i = .pmInit ∨ (∃ v, i = .pmSym v) ∨ (∃ b, i = .pmHrph b) ∨ (∃ b, i = .pmHrpl b) ∨ i = .pmFin ∨ i = .srst) := by
  cases h <;> simp

theorem Writes.bcu_writer (h : Writes s i u) : (u.acc, u.cnt) = (s.acc, s.cnt) ∨
    ((∃ f t, i = .cvCfg f t) ∨ (∃ v, i = .cvPush v) ∨ (∃ p, i = .cvFlush p) ∨ i = .srst) := by
  cases h <;> simp

theorem Writes.cfg_writer (h : Writes s i u) : u.cfg = s.cfg ∨ ((∃ f t, i = .cvCfg f t) ∨ i = .srst) := by
  cases h <;> simp

theorem Writes.vok_writer (h : Writes s i u) : u.vok = s.vok ∨ (i = .pmVfy ∨ i = .srst) := by
  cases h with
  | pmVfy => exact .inr (.inl rfl)
  | clrerr => exact .inl s.clearError_flags.2.2.1
  | srst => exact .inr (.inr rfl)
  | _ => exact .inl rfl

theorem Writes.record_writer (h : Writes s i u) :
    (u.errl = s.errl ∧ u.ecode = s.ecode ∧ u.ecmd = s.ecmd) ∨ (i = .clrerr ∨ i = .srst) := by
  cases h with
  | pmVfy =>
    obtain ⟨he, hc, -⟩ := s.withVok_flags (verifies s.chk targetM)
    exact .inl ⟨he, hc, rfl⟩
  | clrerr => exact .inr (.inl rfl)
  | srst => exact .inr (.inr rfl)
  | _ => exact .inl ⟨rfl, rfl, rfl⟩

/-- The error record changes by an error, CLRERR or SRST (R32). -/
theorem Effect.record_writer {t : State} (h : Effect s i t) :
    (t.errl = s.errl ∧ t.ecode = s.ecode ∧ t.ecmd = s.ecmd) ∨
      ((t.errl = true ∧ s.errl = false) ∨ i = .clrerr ∨ i = .srst) := by
  cases h with
  | raise e he => exact .inr (.inl ⟨(s.raise_flags e _).1, he⟩)
  | run ws u _ hw => exact hw.record_writer.imp_right .inr
  | _ => exact .inl ⟨rfl, rfl, rfl⟩

theorem rspq_eq_of_commit_nil {t : State} {f : State → State} (h : s.commit [] f = .next t)
    (hf : (f s).rspq = s.rspq) : t.rspq = s.rspq := by
  rw [State.commit_nil] at h
  cases h; exact hf

theorem rspq_eq_of_unlessLatched {t : State} {k : State → Result} (h : s.unlessLatched k = .next t)
    (hk : k s = .next t → t.rspq = s.rspq) : t.rspq = s.rspq := by
  obtain ⟨-, rfl⟩ | ⟨-, h⟩ := State.unlessLatched_next h
  · rfl
  · exact hk h

theorem rspq_eq_of_feed {t : State} {v : Sym} (h : s.feed v = .next t) : t.rspq = s.rspq :=
  rspq_eq_of_unlessLatched h fun h => rspq_eq_of_commit_nil h rfl

/-- RSPQ changes by the commands that push and by SRST (R32, 30_encoding.md R79). -/
theorem exec_rspq_writer {t : State} (h : exec i s = .next t) : t.rspq = s.rspq ∨
    (i = .pmFin ∨ i = .pmVfy ∨ (∃ v, i = .cvPush v) ∨ i = .cvFlush true ∨ (∃ v, i = .csFwd v) ∨ (∃ b, i = .csRev b) ∨
      (∃ r, i = .rd r) ∨ i = .srst) := by
  unfold exec at h
  cases i with
  | nop => exact .inl (rspq_eq_of_commit_nil h rfl)
  | pmInit => exact .inl (rspq_eq_of_unlessLatched h fun h => rspq_eq_of_commit_nil h rfl)
  | pmSym v => exact .inl (rspq_eq_of_feed h)
  | pmHrph b => exact .inl (rspq_eq_of_feed h)
  | pmHrpl b => exact .inl (rspq_eq_of_feed h)
  | cvCfg f u =>
    refine .inl (rspq_eq_of_unlessLatched h fun h => ?_)
    split at h
    · exact rspq_eq_of_commit_nil h rfl
    · cases h; rfl
  | cvFlush p =>
    cases p with
    | true => simp
    | false =>
      refine .inl (rspq_eq_of_unlessLatched h fun h => ?_)
      rw [if_neg Bool.false_ne_true] at h
      split at h
      · cases h; rfl
      · exact rspq_eq_of_commit_nil h rfl
  | clrerr => exact .inl (rspq_eq_of_commit_nil h rfl)
  | _ => simp

end Sys2Proof.Machine
end

section
namespace Sys2Proof

open Sys2Proof.Machine

/-- Settles O50, turn by turn: the engine's turn appends or is an SRST, a pop moves one word over, and a reset empties RSPQ. -/
theorem responsesLeaveInOrder : Obligations.ResponsesLeaveInOrder := by
  intro s t h
  have hengine (hdue : s.agenda = [] ∨ ∃ ts, s.agenda = .engine :: ts) :
      (∃ ws, t.popped ++ t.rspq = s.popped ++ s.rspq ++ ws) ∨
        (s.clearsQueue = true ∧ t.rspq = [] ∧ t.popped = s.popped) := by
    rw [step_of_engine_due hdue] at h
    obtain ⟨hp, ⟨ws, hq⟩ | ⟨hc, hq⟩⟩ := engineTurn_responses h
    · exact .inl ⟨ws, by rw [hp, ← hq, List.append_assoc]⟩
    · exact .inr ⟨State.clearsQueue_of_srst hdue hc, hq, hp⟩
  cases ha : s.agenda with
  | nil => exact hengine (.inl ha)
  | cons turn ts =>
    cases turn with
    | engine => exact hengine (.inr ⟨ts, ha⟩)
    | writeCmd w =>
      simp only [step, nextTurn, ha, takeTurn] at h
      cases h; exact .inl ⟨[], (List.append_nil _).symm⟩
    | popRsp =>
      simp only [step, nextTurn, ha, takeTurn] at h
      cases h; exact .inl ⟨[], (State.hostPop_responses _).trans (List.append_nil _).symm⟩
    | reset =>
      simp only [step, nextTurn, ha, takeTurn] at h
      cases h; exact .inr ⟨by simp only [State.clearsQueue, ha], rfl, rfl⟩

/-- Settles O48: a register that changed was written by error entry or by a command that executed, and each row of the access matrix
says which commands write it. -/
theorem registersChangeOnlyByTheirWriters : Obligations.RegistersChangeOnlyByTheirWriters := by
  intro s t i h
  have he := exec_effect h
  have hchk := he.read_eq_or State.chk (fun _ _ => rfl) (fun _ _ => rfl) fun _ hw => hw.chk_writer
  have hbcu := he.read_eq_or (fun u => (u.acc, u.cnt)) (fun _ _ => rfl) (fun _ _ => rfl) fun _ hw => hw.bcu_writer
  have hcfg := he.read_eq_or State.cfg (fun _ _ => rfl) (fun _ _ => rfl) fun _ hw => hw.cfg_writer
  have hvok := he.read_eq_or State.vok (fun e w => (s.raise_flags e w).2.2.1) (fun _ _ => rfl) fun _ hw => hw.vok_writer
  refine ⟨hchk.resolve_left, fun hne => hbcu.resolve_left fun heq => ?_, hcfg.resolve_left, hvok.resolve_left,
    fun hne => he.record_writer.resolve_left fun heq => ?_, (exec_rspq_writer h).resolve_left, he.modelFields⟩
  · obtain ⟨hacc, hcnt⟩ := Prod.mk.inj heq
    exact hne.elim (· hacc) (· hcnt)
  · obtain ⟨herrl, hecode, hecmd⟩ := heq
    exact hne.elim (· herrl) (·.elim (· hecode) (· hecmd))

end Sys2Proof
end

section
/-! Noninterference: two states that a relation ties together stay tied together, whatever command runs (10_state.md R25, R28). -/

namespace Sys2Proof.Machine

/-- Two outcomes are next states, and `R` relates them. -/
def BothNext (R : State → State → Prop) (a b : Result) : Prop :=
  ∃ s t, a = .next s ∧ b = .next t ∧ R s t

/-- `R` relates only states that differ in ACC and STATUS alone and agree on ERRL, and the operations that commands are made of keep it. -/
structure Unobserved (R : State → State → Prop) : Prop where
  frame {s t : State} : R s t → t = { s with acc := t.acc, status := t.status }
  errl {s t : State} : R s t → t.errl = s.errl
  setChk {s t : State} (c : Chk) : R s t → R { s with chk := c } { t with chk := c }
  setBcu {s t : State} (g : BitVec 8) (a : BitVec 15) (n : BitVec 4) :
    R s t → R { s with cfg := g, acc := a, cnt := n } { t with cfg := g, acc := a, cnt := n }
  setVok {s t : State} (b : Bool) :
    R s t → R { s with status := statusWithVok s.status b } { t with status := statusWithVok t.status b }
  raise {s t : State} (e : EngineError) (w : CmdWord) : R s t → R (s.raise e w) (t.raise e w)
  clearError {s t : State} : R s t → R s.clearError t.clearError
  clearEngine {s t : State} : R s t → R s.clearEngine t.clearEngine
  complete {s t : State} (ws : List RspWord) : R s t → R (s.pushAll ws).retire (t.pushAll ws).retire

/-- The words CV_PUSH v pushes (41_bitconv.md R102). -/
def State.cvPushWords (s : State) (v : Byte) : List Nat :=
  emitWords s.toW (shiftIn s.fromW s.toW s.acc.toNat v.toNat) (s.cnt.toNat + s.fromW) (s.cnt.toNat + s.fromW)

/-- The register writes of CV_PUSH v (41_bitconv.md R102). -/
def State.cvPushWrite (s : State) (v : Byte) : State :=
  { s with
    acc := BitVec.ofNat 15 (shiftIn s.fromW s.toW s.acc.toNat v.toNat)
    cnt := BitVec.ofNat 4 (emitRest s.toW (s.cnt.toNat + s.fromW) (s.cnt.toNat + s.fromW)) }

theorem execCvPush_eq (v : Byte) (s : State) : execCvPush v s = s.unlessLatched fun s =>
    if 2 ^ s.fromW ≤ v.toNat then .next (s.raise .invalidValue (encode (.cvPush v)))
    else s.commit ((s.cvPushWords v).map fun x => BitVec.ofNat 32 x) fun s => s.cvPushWrite v := rfl

namespace Unobserved

variable {R : State → State → Prop} {s t : State}

theorem chk (hR : Unobserved R) (h : R s t) : t.chk = s.chk := (congrArg State.chk (hR.frame h)).trans rfl

theorem cnt (hR : Unobserved R) (h : R s t) : t.cnt = s.cnt := (congrArg State.cnt (hR.frame h)).trans rfl

theorem cfg (hR : Unobserved R) (h : R s t) : t.cfg = s.cfg := (congrArg State.cfg (hR.frame h)).trans rfl

theorem fromW (hR : Unobserved R) (h : R s t) : t.fromW = s.fromW := (congrArg State.fromW (hR.frame h)).trans rfl

theorem toW (hR : Unobserved R) (h : R s t) : t.toW = s.toW := (congrArg State.toW (hR.frame h)).trans rfl

/-- The two states wait for RSPQ space together (20_memory.md R59). -/
theorem hasRoom (hR : Unobserved R) (h : R s t) (k : Nat) : t.hasRoom k = s.hasRoom k :=
  (congrArg (State.hasRoom · k) (hR.frame h)).trans rfl

theorem commit_bothNext (hR : Unobserved R) (h : R s t) (ws : List RspWord) {f g : State → State} (hw : R (f s) (g t)) :
    BothNext R (s.commit ws f) (t.commit ws g) := by
  unfold State.commit
  rw [hR.hasRoom h]
  split
  · exact ⟨_, _, rfl, rfl, hR.complete ws hw⟩
  · exact ⟨_, _, rfl, rfl, h⟩

theorem unlessLatched_bothNext (hR : Unobserved R) (h : R s t) {k : State → Result} (hk : BothNext R (k s) (k t)) :
    BothNext R (s.unlessLatched k) (t.unlessLatched k) := by
  have hdrop : R s.retire t.retire := by simpa using hR.complete [] h
  unfold State.unlessLatched
  rw [hR.errl h]
  split
  · exact ⟨_, _, rfl, rfl, hdrop⟩
  · exact hk

theorem raise_bothNext (hR : Unobserved R) (h : R s t) (e : EngineError) (w : CmdWord) :
    BothNext R (.next (s.raise e w)) (.next (t.raise e w)) :=
  ⟨_, _, rfl, rfl, hR.raise e w h⟩

theorem feed_bothNext (hR : Unobserved R) (h : R s t) (v : Sym) : BothNext R (s.feed v) (t.feed v) := by
  refine hR.unlessLatched_bothNext h (hR.commit_bothNext h [] ?_)
  rw [hR.chk h]; exact hR.setChk _ h

/-- A command keeps `R`, if the residue of CV_FLUSH, the words and writes of CV_PUSH, and the register an RD pushes do not tell the two
states apart. -/
theorem exec_bothNext (hR : Unobserved R) (h : R s t) (i : Instr)
    (hres : residue s.toW t.acc.toNat s.cnt.toNat = residue s.toW s.acc.toNat s.cnt.toNat)
    (hpush : ∀ v : Byte, v.toNat < 2 ^ s.fromW → t.cvPushWords v = s.cvPushWords v ∧ R (s.cvPushWrite v) (t.cvPushWrite v))
    (hrd : ∀ r, i = .rd r → t.readReg r = s.readReg r) : BothNext R (exec i s) (exec i t) := by
  unfold exec
  cases i with
  | nop => exact hR.commit_bothNext h [] h
  | pmInit => exact hR.unlessLatched_bothNext h (hR.commit_bothNext h [] (hR.setChk _ h))
  | pmSym v => exact hR.feed_bothNext h v
  | pmHrph b => exact hR.feed_bothNext h _
  | pmHrpl b => exact hR.feed_bothNext h _
  | pmFin =>
    refine hR.unlessLatched_bothNext h ?_
    rw [hR.chk h]
    exact hR.commit_bothNext h _ (hR.setChk _ h)
  | pmVfy =>
    refine hR.unlessLatched_bothNext h ?_
    rw [hR.chk h]
    exact hR.commit_bothNext h _ (hR.setVok _ h)
  | cvCfg f u =>
    refine hR.unlessLatched_bothNext h ?_
    split
    · exact hR.commit_bothNext h [] (hR.setBcu _ _ _ h)
    · exact hR.raise_bothNext h _ _
  | cvPush v =>
    simp only [execCvPush_eq]
    refine hR.unlessLatched_bothNext h ?_
    rw [hR.fromW h]
    split
    · exact hR.raise_bothNext h _ _
    · obtain ⟨hwords, hwrite⟩ := hpush v (by omega)
      rw [hwords]
      exact hR.commit_bothNext h _ hwrite
  | cvFlush p =>
    refine hR.unlessLatched_bothNext h ?_
    have hclear : R { s with acc := 0, cnt := 0 } { t with acc := 0, cnt := 0 } := by
      simpa only [hR.cfg h] using hR.setBcu s.cfg 0 0 h
    simp only [hR.fromW h, hR.toW h, hR.cnt h, hres]
    split
    · exact hR.commit_bothNext h _ hclear
    · split
      · exact hR.raise_bothNext h _ _
      · exact hR.commit_bothNext h [] hclear
  | csFwd v => exact hR.unlessLatched_bothNext h (hR.commit_bothNext h _ h)
  | csRev b => exact hR.unlessLatched_bothNext h (hR.commit_bothNext h _ h)
  | rd r =>
    simp only [execRd, hrd r rfl]
    exact hR.commit_bothNext h _ h
  | clrerr => exact hR.commit_bothNext h [] (hR.clearError h)
  | srst => exact hR.commit_bothNext h [] (hR.clearEngine h)

end Unobserved

end Sys2Proof.Machine
end

section
/-! The two parts of the state that no output shows: VOK (10_state.md R28) and the stale bits of ACC (R25). -/

namespace Sys2Proof.Machine

/-- `t` is `s` but for bits of STATUS that are neither ERRL, ECODE nor reserved: but for VOK (R27). -/
def EqButVok (s t : State) : Prop :=
  ∃ st : BitVec 8, t = { s with status := st } ∧
    t.errl = s.errl ∧ t.ecode = s.ecode ∧ t.statusReserved = s.statusReserved

/-- `t` is `s` but for the stale bits of ACC, those at CNT and above (R25). -/
def EqButStaleAcc (s t : State) : Prop :=
  ∃ a : BitVec 15, t = { s with acc := a } ∧ a.toNat % 2 ^ s.cnt.toNat = s.acc.toNat % 2 ^ s.cnt.toNat

theorem eqButVok_withVok (s : State) (b : Bool) : EqButVok s { s with status := statusWithVok s.status b } :=
  ⟨_, rfl, s.withVok_flags b⟩

/-- Every command treats ERRL, ECODE and the reserved bits without a look at VOK. -/
theorem eqButVok_unobserved : Unobserved EqButVok where
  frame := by rintro s t ⟨st, rfl, -⟩; rfl
  errl := by rintro s t ⟨st, -, he, -⟩; exact he
  setChk c := by rintro ⟨st, rfl, hflags⟩; exact ⟨st, rfl, hflags⟩
  setBcu g a n := by rintro ⟨st, rfl, hflags⟩; exact ⟨st, rfl, hflags⟩
  setVok {s t} b := by
    rintro ⟨st, rfl, he, hc, hr⟩
    obtain ⟨he₁, hc₁, hr₁⟩ := s.withVok_flags b
    obtain ⟨he₂, hc₂, hr₂⟩ := State.withVok_flags { s with status := st } b
    exact ⟨_, rfl, he₂.trans (he.trans he₁.symm), hc₂.trans (hc.trans hc₁.symm), hr₂.trans (hr.trans hr₁.symm)⟩
  raise {s t} e w := by
    rintro ⟨st, rfl, -, -, hr⟩
    obtain ⟨he₁, hc₁, -, hr₁⟩ := s.raise_flags e w
    obtain ⟨he₂, hc₂, -, hr₂⟩ := State.raise_flags { s with status := st } e w
    exact ⟨_, rfl, he₂.trans he₁.symm, hc₂.trans hc₁.symm, hr₂.trans (hr.trans hr₁.symm)⟩
  clearError {s t} := by
    rintro ⟨st, rfl, -, -, hr⟩
    obtain ⟨he₁, hc₁, -, hr₁⟩ := s.clearError_flags
    obtain ⟨he₂, hc₂, -, hr₂⟩ := State.clearError_flags { s with status := st }
    exact ⟨_, rfl, he₂.trans he₁.symm, hc₂.trans hc₁.symm, hr₂.trans (hr.trans hr₁.symm)⟩
  clearEngine := by rintro s t ⟨st, rfl, -⟩; exact ⟨_, rfl, rfl, rfl, rfl⟩
  complete ws := by rintro ⟨st, rfl, hflags⟩; exact ⟨st, rfl, hflags⟩

/-- Only RD STATUS shows VOK (R28). -/
theorem EqButVok.readReg {s t : State} (h : EqButVok s t) {r : RdReg} (hr : r ≠ .status) : t.readReg r = s.readReg r := by
  obtain ⟨st, rfl, -⟩ := h
  cases r with
  | status => exact absurd rfl hr
  | _ => rfl

theorem exec_eqButVok {s t : State} (h : EqButVok s t) {i : Instr} (hi : i ≠ .rd .status) :
    BothNext EqButVok (exec i s) (exec i t) := by
  refine eqButVok_unobserved.exec_bothNext h i ?_ (fun v _ => ?_)
    fun r hr => h.readReg fun hst => hi (by rw [hr, hst])
  · obtain ⟨st, rfl, -⟩ := h; rfl
  · obtain ⟨st, rfl, hflags⟩ := h
    exact ⟨rfl, st, rfl, hflags⟩

/-- No command but the BCU's looks at ACC. -/
theorem eqButStaleAcc_unobserved : Unobserved EqButStaleAcc where
  frame := by rintro s t ⟨a, rfl, -⟩; rfl
  errl := by rintro s t ⟨a, rfl, -⟩; rfl
  setChk c := by rintro ⟨a, rfl, hlow⟩; exact ⟨a, rfl, hlow⟩
  setBcu g a n := by rintro ⟨_, rfl, -⟩; exact ⟨a, rfl, rfl⟩
  setVok b := by rintro ⟨a, rfl, hlow⟩; exact ⟨a, rfl, hlow⟩
  raise e w := by rintro ⟨a, rfl, hlow⟩; exact ⟨a, rfl, hlow⟩
  clearError := by rintro s t ⟨a, rfl, hlow⟩; exact ⟨a, rfl, hlow⟩
  clearEngine := by rintro s t ⟨a, rfl, -⟩; exact ⟨0, rfl, rfl⟩
  complete ws := by rintro ⟨a, rfl, hlow⟩; exact ⟨a, rfl, hlow⟩

/-- The unconsumed bits and the new value alone are the low `cnt + f` bits of the shifted accumulator (41_bitconv.md R102, R103). -/
theorem shiftIn_low_congr {f t v cnt a b : Nat} (hv : v < 2 ^ f) (hc : cnt < t) (h : a % 2 ^ cnt = b % 2 ^ cnt) :
    shiftIn f t a v % 2 ^ (cnt + f) = shiftIn f t b v % 2 ^ (cnt + f) :=
  msbBits_inj (by rw [msbBits_shiftIn _ _ _ _ _ hv hc, msbBits_shiftIn _ _ _ _ _ hv hc, msbBits_congr h])

/-- The loop of CV_PUSH reads only the bits below its counter. -/
theorem emitWords_congr {t n a b : Nat} (h : a % 2 ^ n = b % 2 ^ n) :
    ∀ fuel cnt, cnt ≤ n → emitWords t a fuel cnt = emitWords t b fuel cnt
  | 0, _, _ => rfl
  | fuel + 1, cnt, hcnt => by
    by_cases hc : t ≤ cnt
    · have hcut (x : Nat) : (x >>> (cnt - t)) &&& maskBits t = x % 2 ^ cnt / 2 ^ (cnt - t) := by
        rw [maskBits, Nat.and_two_pow_sub_one_eq_mod, Nat.shiftRight_eq_div_pow, ← Nat.mod_mul_right_div_self, ← pow_add,
          Nat.sub_add_cancel hc]
      have hlow : a % 2 ^ cnt = b % 2 ^ cnt := Nat.ModEq.of_dvd (pow_dvd_pow 2 hcnt) h
      rw [emitWords, emitWords, if_pos hc, if_pos hc, hcut, hcut, hlow, emitWords_congr h fuel _ (by omega)]
    · rw [emitWords, emitWords, if_neg hc, if_neg hc]

/-- CV_PUSH pushes the same words and leaves the same unconsumed bits, whatever the stale bits were (R25, R103). -/
theorem EqButStaleAcc.cvPush {s t : State} (h : EqButStaleAcc s t) (hs : s.BcuInRange) {v : Byte} (hv : v.toNat < 2 ^ s.fromW) :
    t.cvPushWords v = s.cvPushWords v ∧ EqButStaleAcc (s.cvPushWrite v) (t.cvPushWrite v) := by
  obtain ⟨-, ⟨hto, -⟩, hcnt, -⟩ := hs
  obtain ⟨a, rfl, hlow⟩ := h
  have hlow' := shiftIn_low_congr hv hcnt hlow
  refine ⟨emitWords_congr hlow' _ _ le_rfl, _, rfl, ?_⟩
  have hle : (s.cvPushWrite v).cnt.toNat ≤ s.cnt.toNat + s.fromW := by
    simp only [State.cvPushWrite, emitRest_eq s.toW hto _ _ le_rfl, BitVec.toNat_ofNat]
    exact (Nat.mod_le _ _).trans (Nat.mod_le _ _)
  have hacc (x : Nat) : (BitVec.ofNat 15 x).toNat % 2 ^ (s.cvPushWrite v).cnt.toNat = x % 2 ^ (s.cvPushWrite v).cnt.toNat := by
    rw [BitVec.toNat_ofNat]
    exact Nat.mod_mod_of_dvd _ (pow_dvd_pow 2 (Nat.le_of_lt_succ (s.cvPushWrite v).cnt.isLt))
  exact (hacc _).trans ((Nat.ModEq.of_dvd (pow_dvd_pow 2 hle) hlow').trans (hacc _).symm)

/-- Only RD ACC shows the stale bits (R25). -/
theorem EqButStaleAcc.readReg {s t : State} (h : EqButStaleAcc s t) {r : RdReg} (hr : r ≠ .acc) :
    t.readReg r = s.readReg r := by
  obtain ⟨a, rfl, -⟩ := h
  cases r with
  | acc => exact absurd rfl hr
  | _ => rfl

theorem exec_eqButStaleAcc {s t : State} (h : EqButStaleAcc s t) (hs : s.BcuInRange) {i : Instr} (hi : i ≠ .rd .acc) :
    BothNext EqButStaleAcc (exec i s) (exec i t) := by
  refine eqButStaleAcc_unobserved.exec_bothNext h i ?_ (fun v hv => h.cvPush hs hv)
    fun r hr => h.readReg fun hacc => hi (by rw [hr, hacc])
  obtain ⟨-, -, hcnt, -⟩ := hs
  obtain ⟨a, rfl, hlow⟩ := h
  rw [residue_mod _ _ _ hcnt.le, residue_mod _ _ _ hcnt.le, hlow]

end Sys2Proof.Machine
end

section
namespace Sys2Proof

open Sys2Proof.Machine

/-- Settles O49: no operation of a command looks at VOK, and of the registers only STATUS shows it. -/
theorem vokChangesNoBehaviour : Obligations.VokChangesNoBehaviour := by
  intro s b i hi
  obtain ⟨s', _, hs, ht, st, rfl, hflags⟩ := exec_eqButVok (eqButVok_withVok s b) hi
  exact ⟨s', _, hs, ht, rfl, hflags⟩

/-- Settles O32: CV_PUSH and CV_FLUSH read ACC below CNT alone, and of the registers only ACC shows the bits above. -/
theorem staleBitsReachNoOutput : Obligations.StaleBitsReachNoOutput := by
  intro s t i hs _ ht hlow hi
  obtain ⟨s', _, hs', ht', a, rfl, hlow'⟩ := exec_eqButStaleAcc ⟨t.acc, ht, hlow⟩ hs hi
  exact ⟨s', _, hs', ht', rfl, hlow'⟩

end Sys2Proof
end

section
/-! What a host's turn does and what the ports show (20_memory.md R60, R61). -/

namespace Sys2Proof.Machine

/-- A turn on the agenda (00_scope.md R14) is taken off it and runs. -/
theorem step_of_agenda_cons {s : State} {a : Turn} {ts : List Turn} (h : s.agenda = a :: ts) :
    step s = takeTurn a { s with agenda := ts } := by
  simp only [step, nextTurn, h]

end Sys2Proof.Machine
end

section
namespace Sys2Proof

open Sys2Proof.Machine

/-- Settles O8: the two host turns are `State.hostWrite` and `State.hostPop`, and a pop does what RSPQ lets it do. -/
theorem hostTurnsDoHostActions : Obligations.HostTurnsDoHostActions := by
  intro s ts
  refine ⟨fun w ha => step_of_agenda_cons ha, fun w ws ha hq => ?_, fun ha hq => ?_⟩
  · rw [step_of_agenda_cons ha]
    simp only [takeTurn, State.hostPop, hq]
  · rw [step_of_agenda_cons ha]
    simp only [takeTurn, State.hostPop, hq]

/-- Settles O51: the status outputs are fields of STATUS whatever `rst_n` is; the handshakes follow RSPQ and `rst_n`. -/
theorem portsShowTheState : Obligations.PortsShowTheState := by
  intro s rstN
  refine ⟨rfl, rfl, rfl, fun w ws hq => ?_, fun hq => ?_, rfl, rfl⟩
  · simp [State.ports, hq]
  · simp [State.ports, hq]

end Sys2Proof
end

section
/-! No command and no turn stops (20_memory.md R59, 60_exceptions.md R260). -/

namespace Sys2Proof.Machine

/-- Equality is a relation that every operation of a command keeps: noninterference at one state says that the command answers. -/
theorem eq_unobserved : Unobserved (fun s t => s = t) where
  frame := by rintro s t rfl; rfl
  errl := by rintro s t rfl; rfl
  setChk c := by rintro rfl; rfl
  setBcu g a n := by rintro rfl; rfl
  setVok b := by rintro rfl; rfl
  raise e w := by rintro rfl; rfl
  clearError := by rintro s t rfl; rfl
  clearEngine := by rintro s t rfl; rfl
  complete ws := by rintro rfl; rfl

theorem exec_next (i : Instr) (s : State) : ∃ t, exec i s = .next t := by
  obtain ⟨t, _, ht, -⟩ := eq_unobserved.exec_bothNext (s := s) rfl i rfl (fun _ _ => ⟨rfl, rfl⟩) fun _ _ => rfl
  exact ⟨t, ht⟩

theorem runWord_next (w : CmdWord) (s : State) : ∃ t, runWord w s = .next t := by
  cases hd : decode w with
  | command i => rw [runWord_of_command hd]; exact exec_next i s
  | illegal why =>
    rw [runWord_of_illegal hd]
    obtain ⟨-, e⟩ | ⟨-, e⟩ := execIllegal_cases w s <;> exact ⟨_, e⟩

theorem engineTurn_next (s : State) : ∃ t, engineTurn s = .next t := by
  cases hc : s.cmds with
  | nil => exact ⟨s, by simp only [engineTurn, hc]⟩
  | cons w rest => rw [engineTurn_of_cons hc]; exact runWord_next w s

end Sys2Proof.Machine
end

section
namespace Sys2Proof

open Sys2Proof.Machine

/-- Settles O11: the engine's turn answers because every command does, and the host's turns are total. -/
theorem stepAlwaysAnswersNext : Obligations.StepAlwaysAnswersNext := by
  intro s
  cases ha : s.agenda with
  | nil => rw [step_of_engine_due (.inl ha)]; exact engineTurn_next _
  | cons turn ts =>
    rw [step_of_agenda_cons ha]
    cases turn with
    | engine => exact engineTurn_next _
    | _ => exact ⟨_, rfl⟩

end Sys2Proof
end

section
/-! The push count of 30_encoding.md R79: of a command's own word, and its bounds. -/

namespace Sys2Proof

/-- Decoding the word of a command gives the command back (R71, R72, R74). The operands are enumerated, row by row. -/
theorem decode_encode {i : Instr} (h : i.wellFormed = true) : decode (encode i) = .command i := by
  cases i with
  | pmSym s => revert s; decide
  | pmHrph b => revert b; decide
  | pmHrpl b => revert b; decide
  | cvCfg f t => revert f t; decide
  | cvPush v => revert v; decide
  | cvFlush p => revert p; decide
  | csFwd s => revert s; decide
  | csRev b => revert b; decide
  | rd r => cases r <;> decide
  | _ => decide

end Sys2Proof

namespace Sys2Proof.Machine

/-- The words a command pushes in `s`: none when it is dropped (60_exceptions.md R266). -/
def State.pushesNow (s : State) (i : Instr) : Nat := if s.errl && !runsWhileLatched i then 0 else s.pushesOf i

theorem State.pushCount_of_command {w : CmdWord} {i : Instr} (h : decode w = .command i) (s : State) :
    s.pushCount w = s.pushesNow i := by
  simp only [State.pushCount, State.pushesNow, h]

theorem State.pushCount_of_illegal {w : CmdWord} {why : Illegal} (h : decode w = .illegal why) (s : State) :
    s.pushCount w = 0 := by
  simp only [State.pushCount, h]

theorem State.pushCount_le_pushesOf {w : CmdWord} {i : Instr} (h : decode w = .command i) (s : State) :
    s.pushCount w ≤ s.pushesOf i := by
  rw [s.pushCount_of_command h, State.pushesNow]
  split
  · exact Nat.zero_le _
  · exact le_rfl

/-- The words of CV_PUSH hold at most the TO − 1 bits that were left and the FROM new ones (41_bitconv.md R102). -/
theorem State.pushesOf_cvPush_mul_lt {s : State} (hs : s.BcuInRange) (v : Byte) :
    s.pushesOf (.cvPush v) * s.toW < s.fromW + s.toW := by
  obtain ⟨-, ⟨hto, -⟩, hcnt, -⟩ := hs
  have hbits : (s.cnt.toNat + s.fromW) / s.toW * s.toW ≤ s.cnt.toNat + s.fromW := Nat.div_mul_le_self _ _
  rw [State.pushesOf]
  split <;> omega

theorem State.pushesOf_le_eight {s : State} (hs : s.BcuInRange) (i : Instr) : s.pushesOf i ≤ 8 := by
  obtain ⟨⟨-, hfrom⟩, ⟨hto, -⟩, -⟩ := id hs
  cases i with
  | cvPush v =>
    have hlt : s.pushesOf (.cvPush v) * s.toW < 9 * s.toW := (s.pushesOf_cvPush_mul_lt hs v).trans_le (by omega)
    exact Nat.le_of_lt_succ (Nat.lt_of_mul_lt_mul_right hlt)
  | cvFlush p => rw [State.pushesOf]; split <;> decide
  | _ => simp only [State.pushesOf, Nat.reduceLeDiff, Nat.zero_le]

end Sys2Proof.Machine
end

section
namespace Sys2Proof

open Sys2Proof.Machine

/-- Settles O45: only CV_PUSH's count depends on the widths, and its words hold fewer than FROM + TO bits. -/
theorem pushCountIsAtMostEight : Obligations.PushCountIsAtMostEight := by
  refine ⟨fun s w hs => ⟨?_, fun v hf ht => ?_, fun v hf ht => ?_⟩, by decide⟩
  · cases hd : decode w with
    | command i => exact (s.pushCount_le_pushesOf hd).trans (State.pushesOf_le_eight hs i)
    | illegal why => rw [s.pushCount_of_illegal hd]; exact Nat.zero_le _
  all_goals
    have hle := s.pushCount_le_pushesOf (decode_encode (i := .cvPush v) rfl)
    have hlt := State.pushesOf_cvPush_mul_lt hs v
    rw [hf, ht] at hlt
    omega

end Sys2Proof
end

section
/-! When a command waits and what it pushes when it does not (20_memory.md R59). -/

namespace Sys2Proof.Machine

/-- `r` is the outcome in `s` of a command with push count `k` (R59): while the `k` words do not fit, `s` unchanged; once they fit, a
state in which the command is no longer pending and exactly `k` words are appended to RSPQ. -/
def RunsOnceFits (s : State) (k : Nat) (r : Result) : Prop :=
  (¬ s.Fits k → r = .next s) ∧
    (s.Fits k → ∃ t ws, r = .next t ∧ t.cmds = s.cmds.tail ∧ t.rspq = s.rspq ++ ws ∧ ws.length = k)

namespace RunsOnceFits

variable {s : State} {i : Instr}

/-- A command that pushes nothing is done with at once. -/
theorem of_next {t : State} (hc : t.cmds = s.cmds.tail) (hq : t.rspq = s.rspq) : RunsOnceFits s 0 (.next t) :=
  ⟨fun h => absurd (.inl rfl) h, fun _ => ⟨t, [], rfl, hc, hq.trans (List.append_nil _).symm, rfl⟩⟩

theorem of_commit {k : Nat} {ws : List RspWord} {f : State → State} (hk : ws.length = k) (hc : (f s).cmds = s.cmds)
    (hq : (f s).rspq = s.rspq) : RunsOnceFits s k (s.commit ws f) := by
  subst hk
  refine ⟨fun h => ?_, fun h => ?_⟩ <;> rw [State.Fits, ← s.hasRoom_iff] at h
  · exact if_neg h
  · exact ⟨_, ws, if_pos h, congrArg List.tail hc, congrArg (· ++ ws) hq, rfl⟩

/-- A command that the error latch stops pushes nothing while ERRL = 1 (60_exceptions.md R266). -/
theorem of_unlessLatched {k : State → Result} (hl : runsWhileLatched i = false)
    (h : RunsOnceFits s (s.pushesOf i) (k s)) : RunsOnceFits s (s.pushesNow i) (s.unlessLatched k) := by
  obtain ⟨he, e⟩ | ⟨he, e⟩ := s.unlessLatched_cases k <;> rw [State.pushesNow, e, he, hl]
  · exact of_next rfl rfl
  · exact h

theorem of_runsWhileLatched {r : Result} (hl : runsWhileLatched i = true) (h : RunsOnceFits s (s.pushesOf i) r) :
    RunsOnceFits s (s.pushesNow i) r := by
  rwa [State.pushesNow, hl, Bool.not_true, Bool.and_false, if_neg Bool.false_ne_true]

theorem of_feed {v : Sym} (hl : runsWhileLatched i = false) (hk : s.pushesOf i = 0) :
    RunsOnceFits s (s.pushesNow i) (s.feed v) :=
  of_unlessLatched hl (of_commit hk.symm rfl rfl)

/-- CV_PUSH pushes the `floor((CNT + FROM)/TO)` words of its loop (41_bitconv.md R102), none when it raises INVALID_VALUE. -/
theorem cvPush (hto : 1 ≤ s.toW) (v : Byte) : RunsOnceFits s (s.pushesNow (.cvPush v)) (execCvPush v s) := by
  rw [execCvPush_eq]
  refine of_unlessLatched rfl ?_
  rw [State.pushesOf]
  split
  · exact of_next rfl rfl
  · exact of_commit ((List.length_map _).trans (emitWords_length _ _ hto _)) rfl rfl

/-- CV_FLUSH pushes one word if it pads a residue (41_bitconv.md R104), and none when it raises INVALID_PADDING. -/
theorem cvFlush (p : Bool) : RunsOnceFits s (s.pushesNow (.cvFlush p)) (execCvFlush p s) := by
  refine of_unlessLatched rfl ?_
  cases p with
  | true =>
    by_cases hc : 0 < s.cnt.toNat
    · simp only [State.pushesOf, hc, if_true, decide_true, Bool.and_true]
      exact of_commit rfl rfl rfl
    · simp only [State.pushesOf, hc, if_true, if_false, decide_false, Bool.and_false, Bool.false_eq_true]
      exact of_commit rfl rfl rfl
  | false =>
    simp only [State.pushesOf, Bool.false_and, Bool.false_eq_true, if_false]
    split
    · exact of_next rfl rfl
    · exact of_commit rfl rfl rfl

end RunsOnceFits

/-- Each command but SRST waits for, and then pushes, the words of its row of R79. -/
theorem exec_runsOnceFits {s : State} (hs : s.BcuInRange) {i : Instr} (hi : i ≠ .srst) :
    RunsOnceFits s (s.pushesNow i) (exec i s) := by
  unfold exec
  cases i with
  | nop => exact .of_runsWhileLatched rfl (.of_commit rfl rfl rfl)
  | pmInit => exact .of_unlessLatched rfl (.of_commit rfl rfl rfl)
  | pmSym v => exact .of_feed rfl rfl
  | pmHrph b => exact .of_feed rfl rfl
  | pmHrpl b => exact .of_feed rfl rfl
  | pmFin => exact .of_unlessLatched rfl (.of_commit ((List.length_map _).trans (checksumSymbols_length _)) rfl rfl)
  | pmVfy => exact .of_unlessLatched rfl (.of_commit rfl rfl rfl)
  | cvCfg f t =>
    refine .of_unlessLatched rfl ?_
    split
    · exact .of_commit rfl rfl rfl
    · exact .of_next rfl rfl
  | cvPush v => exact .cvPush hs.2.1.1 v
  | cvFlush p => exact .cvFlush p
  | csFwd v => exact .of_unlessLatched rfl (.of_commit rfl rfl rfl)
  | csRev b => exact .of_unlessLatched rfl (.of_commit rfl rfl rfl)
  | rd r => exact .of_runsWhileLatched rfl (.of_commit rfl rfl rfl)
  | clrerr => exact .of_runsWhileLatched rfl (.of_commit rfl rfl rfl)
  | srst => exact absurd rfl hi

end Sys2Proof.Machine
end

section
namespace Sys2Proof

open Sys2Proof.Machine

/-- Settles O44: SRST never waits, and every other command waits for the words of its row of R79, whose count its own word decodes to. -/
theorem commandRunsExactlyWhenItsWordsFit : Obligations.CommandRunsExactlyWhenItsWordsFit := by
  intro s i hwf hs
  rw [s.pushCount_of_command (decode_encode hwf)]
  by_cases hi : i = .srst
  · subst hi
    have hzero : s.pushesNow .srst = 0 := ite_self 0
    rw [hzero]
    exact ⟨fun h => absurd (.inl rfl) h, fun _ => ⟨_, exec_srst s, rfl, fun h => absurd rfl h⟩⟩
  · obtain ⟨hwait, hrun⟩ := exec_runsOnceFits hs hi
    refine ⟨hwait, fun hfit => ?_⟩
    obtain ⟨t, ws, ht, hc, hq, hlen⟩ := hrun hfit
    exact ⟨t, ht, hc, fun _ => ⟨ws, hq, hlen⟩⟩

end Sys2Proof
end

section
/-! One command the host issues, as a run of `step`: no command reads the agenda (00_scope.md R14). -/

namespace Sys2Proof.Machine

theorem feed_agenda (s : State) (v : Sym) (a : List Turn) :
    State.feed { s with agenda := a } v = withAgenda a (s.feed v) :=
  unlessLatched_agenda _ _ _ (commit_agenda _ _ _ _ rfl)

theorem ite_agenda {c : Prop} [Decidable c] {x y u v : Result} {a : List Turn} (hx : u = withAgenda a x)
    (hy : v = withAgenda a y) : (if c then u else v) = withAgenda a (if c then x else y) := by
  rw [hx, hy, apply_ite (withAgenda a)]

/-- A command does the same whatever the agenda is, which it leaves as it was. -/
theorem exec_agenda (i : Instr) (s : State) (a : List Turn) :
    exec i { s with agenda := a } = withAgenda a (exec i s) := by
  unfold exec
  cases i with
  | nop => exact commit_agenda _ _ _ _ rfl
  | pmInit => exact unlessLatched_agenda _ _ _ (commit_agenda _ _ _ _ rfl)
  | pmSym v => exact feed_agenda _ _ _
  | pmHrph b => exact feed_agenda _ _ _
  | pmHrpl b => exact feed_agenda _ _ _
  | pmFin => exact unlessLatched_agenda _ _ _ (commit_agenda _ _ _ _ rfl)
  | pmVfy => exact unlessLatched_agenda _ _ _ (commit_agenda _ _ _ _ rfl)
  | cvCfg f t =>
    exact unlessLatched_agenda _ _ _ (ite_agenda (commit_agenda _ _ _ _ rfl) rfl)
  | cvPush v =>
    exact unlessLatched_agenda _ _ _ (ite_agenda rfl (commit_agenda _ _ _ _ rfl))
  | cvFlush p =>
    exact unlessLatched_agenda _ _ _
      (ite_agenda (commit_agenda _ _ _ _ rfl) (ite_agenda rfl (commit_agenda _ _ _ _ rfl)))
  | csFwd v => exact unlessLatched_agenda _ _ _ (commit_agenda _ _ _ _ rfl)
  | csRev b => exact unlessLatched_agenda _ _ _ (commit_agenda _ _ _ _ rfl)
  | rd r => exact commit_agenda _ _ _ _ rfl
  | clrerr => exact commit_agenda _ _ _ _ rfl
  | srst => exact commit_agenda _ _ _ _ rfl

theorem engineTurn_agenda (s : State) (a : List Turn) :
    engineTurn { s with agenda := a } = withAgenda a (engineTurn s) := by
  cases hc : s.cmds with
  | nil => simp only [engineTurn, hc, withAgenda]
  | cons w rest =>
    rw [engineTurn_of_cons hc, ← hc, engineTurn_of_cons (s := { s with agenda := a }) hc]
    cases hd : decode w with
    | command i => rw [runWord_of_command hd, runWord_of_command hd]; exact exec_agenda i s a
    | illegal why =>
      rw [runWord_of_illegal hd, runWord_of_illegal hd]
      exact unlessLatched_agenda _ _ _ rfl

/-- A run of pop turns is that many pops (20_memory.md R60). -/
theorem run_pops (n : Nat) (s : State) :
    core.run n { s with agenda := List.replicate n .popRsp } = .next { State.popMany n s with agenda := [] } := by
  induction n generalizing s with
  | zero => rfl
  | succ n ih =>
    have hstep : step { s with agenda := List.replicate (n + 1) .popRsp } =
        .next { s.hostPop with agenda := List.replicate n .popRsp } := by
      rw [step_of_agenda_cons List.replicate_succ]
      obtain ⟨hq, h⟩ | ⟨w, ws, hq, h⟩ := s.hostPop_cases <;> rw [h] <;> simp only [takeTurn, State.hostPop, hq]
    rw [run_succ n hstep, ih]; rfl

end Sys2Proof.Machine
end

section
namespace Sys2Proof

open Sys2Proof.Machine

/-- Settles O53, turn by turn: the write, the engine's turn, which does not look at the agenda, and the pops. -/
theorem issueIsARunOfSteps : Obligations.IssueIsARunOfSteps := by
  intro s t w ht
  generalize hpops : List.replicate t.rspq.length Turn.popRsp = pops
  have hwrite : step { s with agenda := [.writeCmd w, .engine] ++ pops } =
      .next { s.hostWrite w with agenda := .engine :: pops } := rfl
  have hengine : step { s.hostWrite w with agenda := .engine :: pops } = .next { t with agenda := pops } := by
    rw [step_of_engine_due (.inr ⟨pops, rfl⟩)]
    exact (engineTurn_agenda (s.hostWrite w) pops).trans (congrArg (withAgenda pops) ht)
  have hissue : (issue w s).2 = State.popMany t.rspq.length t := by
    rw [issue_of_next ht, State.popMany_all]
  rw [Nat.add_comm, run_succ _ hwrite, run_succ _ hengine, ← hpops, run_pops, hissue]

end Sys2Proof
end

section
/-! D0's conversion on bit streams, most significant bit first (20_memory.md R56, 41_bitconv.md R102 to R104). -/

namespace Sys2Proof.Machine

theorem convertFrom_nil (f t : Nat) (pad : Bool) (acc cnt : Nat) :
    convertFrom f t pad [] acc cnt = convertEnd f t pad acc cnt := rfl

theorem convertFrom_cons_of_lt {f v : Nat} (hv : v < 2 ^ f) (t : Nat) (pad : Bool) (data : List Nat) (acc cnt : Nat) :
    convertFrom f t pad (v :: data) acc cnt =
      (convertFrom f t pad data (shiftIn f t acc v) (emitRest t (cnt + f) (cnt + f))).map
        (emitWords t (shiftIn f t acc v) (cnt + f) (cnt + f) ++ ·) := by
  rw [convertFrom, if_neg (not_le.2 hv)]
  cases h : convertFrom f t pad data (shiftIn f t acc v) (emitRest t (cnt + f) (cnt + f)) <;> simp only [h, Except.map]

/-- A value of more than FROM bits anywhere fails the conversion: a later failure is passed on (R102). -/
theorem convertFrom_of_wide {f : Nat} {data : List Nat} (h : ∃ v ∈ data, 2 ^ f ≤ v) (t : Nat) (pad : Bool) :
    ∀ acc cnt, convertFrom f t pad data acc cnt = .error .invalidValue := by
  induction data with
  | nil => simp at h
  | cons v data ih =>
    intro acc cnt
    by_cases hv : 2 ^ f ≤ v
    · rw [convertFrom, if_pos hv]
    · have htail : ∃ v ∈ data, 2 ^ f ≤ v := by simpa [hv] using h
      rw [convertFrom_cons_of_lt (not_le.1 hv), ih htail]; rfl

/-- The loop (R102): the words it emits, then the bits it leaves in the accumulator, fewer than TO, are the bits it had left and those
of the data. What is made of the bits left over is `convertEnd`'s (R104). -/
theorem convertFrom_bits {f t : Nat} (ht : 1 ≤ t) (data : List Nat) (hdata : ∀ v ∈ data, v < 2 ^ f) (acc cnt : Nat)
    (hcnt : cnt < t) :
    ∃ ws acc' cnt', cnt' < t ∧ (∀ w ∈ ws, w < 2 ^ t) ∧
      streamBits t ws ++ msbBits cnt' acc' = msbBits cnt acc ++ streamBits f data ∧
      ∀ pad, convertFrom f t pad data acc cnt = (convertEnd f t pad acc' cnt').map (ws ++ ·) := by
  induction data generalizing acc cnt with
  | nil =>
    refine ⟨[], acc, cnt, hcnt, by simp, by simp, fun pad => ?_⟩
    rw [convertFrom_nil]
    cases convertEnd f t pad acc cnt <;> rfl
  | cons v data ih =>
    obtain ⟨hv, hdata⟩ := List.forall_mem_cons.1 hdata
    have hrest : emitRest t (cnt + f) (cnt + f) < t := by
      rw [emitRest_eq t ht _ _ le_rfl]; exact Nat.mod_lt _ ht
    obtain ⟨ws, acc', cnt', hcnt', hws, hbits, hconv⟩ := ih hdata (shiftIn f t acc v) _ hrest
    refine ⟨emitWords t (shiftIn f t acc v) (cnt + f) (cnt + f) ++ ws, acc', cnt', hcnt', ?_, ?_, fun pad => ?_⟩
    · exact List.forall_mem_append.2 ⟨emitWords_lt _ _ _ _, hws⟩
    · rw [streamBits_append, List.append_assoc, hbits, ← List.append_assoc, ← msbBits_emit t _ ht _ _ le_rfl,
        msbBits_shiftIn _ _ _ _ _ hv hcnt, streamBits_cons, List.append_assoc]
    · rw [convertFrom_cons_of_lt hv, hconv]
      cases convertEnd f t pad acc' cnt'
      · rfl
      · simp [Except.map]

theorem streamBits_inj {t : Nat} {vs ws : List Nat} (hlen : vs.length = ws.length) (hvs : ∀ v ∈ vs, v < 2 ^ t)
    (hws : ∀ w ∈ ws, w < 2 ^ t) (h : streamBits t vs = streamBits t ws) : vs = ws := by
  induction vs generalizing ws with
  | nil => exact (List.length_eq_zero_iff.1 hlen.symm).symm
  | cons v vs ih =>
    cases ws with
    | nil => cases hlen
    | cons w ws =>
      obtain ⟨hv, hvs⟩ := List.forall_mem_cons.1 hvs
      obtain ⟨hw, hws⟩ := List.forall_mem_cons.1 hws
      rw [streamBits_cons, streamBits_cons] at h
      obtain ⟨hhead, htail⟩ := List.append_inj h (by simp)
      have hvw : v = w := by simpa [Nat.mod_eq_of_lt hv, Nat.mod_eq_of_lt hw] using msbBits_inj hhead
      rw [hvw, ih (Nat.succ.inj hlen) hvs hws htail]

/-- The residue is zero when the bits left over are (R104). -/
theorem residue_eq_zero_iff {t cnt : Nat} (acc : Nat) (h : cnt ≤ t) :
    residue t acc cnt = 0 ↔ msbBits cnt acc = List.replicate cnt false := by
  rw [residue_mod _ _ _ h, ← msbBits_zero]
  constructor
  · intro hz
    refine msbBits_congr ?_
    simpa using hz
  · intro hb
    rw [msbBits_inj hb, Nat.zero_mod, Nat.zero_mul]

/-- Padded, the bits left over become the upper bits of one more word, unless there are none (R104). -/
theorem convertEnd_pad (f : Nat) {t acc cnt : Nat} (h : cnt < t) :
    ∃ ws n, convertEnd f t true acc cnt = .ok ws ∧ n < t ∧ (∀ w ∈ ws, w < 2 ^ t) ∧
      streamBits t ws = msbBits cnt acc ++ List.replicate n false := by
  by_cases hc : 0 < cnt
  · refine ⟨[residue t acc cnt], t - cnt, by simp [convertEnd, hc], by omega, ?_, ?_⟩
    · simp only [List.mem_singleton, forall_eq, residue_eq]
      exact Nat.mod_lt _ (by positivity)
    · rw [streamBits_cons, streamBits_nil, List.append_nil, msbBits_residue _ _ _ h.le]
  · obtain rfl : cnt = 0 := by omega
    exact ⟨[], 0, by simp [convertEnd], h, by simp, by simp [msbBits]⟩

/-- Unpadded, the conversion ends without a further word, and only if the bits left over are zeros, fewer than FROM (R104). -/
theorem convertEnd_noPad_map (f : Nat) {t acc cnt : Nat} (h : cnt ≤ t) (us ws : List Nat) :
    (convertEnd f t false acc cnt).map (us ++ ·) = .ok ws ↔
      cnt < f ∧ msbBits cnt acc = List.replicate cnt false ∧ ws = us := by
  rw [← residue_eq_zero_iff acc h, convertEnd, if_neg Bool.false_ne_true]
  split
  · rename_i hbad
    refine ⟨fun he => (by cases he), fun ⟨hcnt, hz, _⟩ => ?_⟩
    exact absurd hbad (by omega)
  · rename_i hgood
    rw [not_or, not_le, not_not] at hgood
    simp [Except.map, hgood, eq_comm]

/-- A stream of whole words with fewer than TO bits behind it determines the words and those bits. -/
theorem streamBits_append_inj {t : Nat} {us ws : List Nat} {bs cs : List Bool} (hbs : bs.length < t) (hcs : cs.length < t)
    (hus : ∀ w ∈ us, w < 2 ^ t) (hws : ∀ w ∈ ws, w < 2 ^ t) (h : streamBits t us ++ bs = streamBits t ws ++ cs) :
    us = ws ∧ bs = cs := by
  have hlen : t * us.length + bs.length = t * ws.length + cs.length := by simpa using congrArg List.length h
  have hcount : us.length = ws.length := by
    have hdiv := congrArg (· / t) hlen
    simpa [Nat.mul_add_div (show 0 < t by omega), Nat.div_eq_of_lt, hbs, hcs] using hdiv
  obtain ⟨hwords, hrest⟩ := List.append_inj h (by rw [streamBits_length, streamBits_length, hcount])
  exact ⟨streamBits_inj hcount hus hws hwords, hrest⟩

end Sys2Proof.Machine
end

section
namespace Sys2Proof

open Sys2Proof.Machine

/-- Settles O34: the loop regroups the bits and leaves fewer than TO of them, which the end of the conversion pads or checks. -/
theorem convertRegroupsBitsMsbFirst : Obligations.ConvertRegroupsBitsMsbFirst := by
  intro f t data _ _ ht _
  refine ⟨fun hdata => ?_, fun hwide pad => convertFrom_of_wide hwide t pad 0 0⟩
  obtain ⟨us, acc, cnt, hcnt, hus, hbits, hconv⟩ := convertFrom_bits ht data hdata 0 0 ht
  rw [msbBits, List.nil_append] at hbits
  refine ⟨?_, fun ws => ?_⟩
  · obtain ⟨last, n, hend, hn, hlast, hzeros⟩ := convertEnd_pad f (acc := acc) hcnt
    refine ⟨us ++ last, n, ?_, hn, List.forall_mem_append.2 ⟨hus, hlast⟩, ?_⟩
    · rw [convert, hconv, hend]; rfl
    · rw [streamBits_append, hzeros, ← List.append_assoc, hbits]
  · rw [convert, hconv, convertEnd_noPad_map f hcnt.le]
    constructor
    · rintro ⟨hfew, hzeros, rfl⟩
      exact ⟨hus, cnt, hcnt, hfew, by rw [← hbits, hzeros]⟩
    · rintro ⟨hws, n, hn, hfew, hstream⟩
      obtain ⟨hwords, hzeros⟩ := streamBits_append_inj (by simpa using hcnt) (by simpa using hn) hus hws (hbits.trans hstream)
      obtain rfl : cnt = n := by simpa using congrArg List.length hzeros
      exact ⟨hfew, hzeros, hwords.symm⟩

end Sys2Proof
end

section
/-! Words and rows of the opcode map, field by field (30_encoding.md R71, R74), and the decoder's answer in each row (R75, R76). -/

namespace Sys2Proof

theorem opField_and (v w : CmdWord) : opField (v &&& w) = opField v &&& opField w := BitVec.extractLsb'_and

/-- A row's mask and match, field by field: every row fixes OP (R75) and leaves some bits of X and IMM to the operands (R72). -/
theorem and_mask_eq_iff (op mx : BitVec 4) (mi : Byte) {w : CmdWord} :
    w &&& cmdWord 0xF mx mi = cmdWord op 0 0 ↔ opField w = op ∧ xField w &&& mx = 0 ∧ immField w &&& mi = 0 := by
  have hop (op : BitVec 4) : op &&& 0xF = op := BitVec.and_allOnes
  induction w using forall_cmdWord with
  | h o x imm => rw [cmdWord_and, cmdWord_inj, opField_cmdWord, xField_cmdWord, immField_cmdWord, hop]

/-! ### The bits that a row wants zero -/

@[simp] theorem and_allX_eq_zero : ∀ x : BitVec 4, x &&& 15#4 = 0#4 ↔ x = 0 := by decide

@[simp] theorem and_padX_eq_zero : ∀ x : BitVec 4, x &&& 14#4 = 0#4 ↔ x.toNat ≤ 1 := by decide

@[simp] theorem and_allImm_eq_zero : ∀ imm : Byte, imm &&& 255#8 = 0#8 ↔ imm = 0 := by decide

@[simp] theorem and_symbolImm_eq_zero : ∀ imm : Byte, imm &&& 224#8 = 0#8 ↔ imm.toNat < 32 := by decide

/-! ### The operands are parts of X and IMM (R72), and a word that matches its row is put together from them -/

theorem extract_symbol (w : CmdWord) : w.extractLsb' 0 5 = (immField w).setWidth 5 := by
  ext i hi; simp [immField, show i < 8 by omega]

theorem extract_fromWidth (w : CmdWord) : w.extractLsb' 0 4 = (immField w).setWidth 4 := by
  ext i hi; simp [immField, show i < 8 by omega]

theorem extract_toWidth (w : CmdWord) : w.extractLsb' 4 4 = (immField w).extractLsb' 4 4 := by
  ext i hi; simp [immField]

theorem extract_padFlag (w : CmdWord) : w.getLsbD 8 = (xField w).getLsbD 0 := by
  simp [xField]

theorem setWidth_symbol : ∀ imm : Byte, imm.toNat < 32 → (imm.setWidth 5).setWidth 8 = imm := by decide

theorem append_widths : ∀ imm : Byte, imm.extractLsb' 4 4 ++ imm.setWidth 4 = imm := by decide

theorem padX_eq : ∀ x : BitVec 4, x.toNat ≤ 1 → (if x.getLsbD 0 then 1 else 0) = x := by decide

theorem index_of_ofIndex : ∀ x : BitVec 4, ∀ r ∈ RdReg.ofIndex x, r.index = x := by decide

theorem ofIndex_eq_none_iff : ∀ x : BitVec 4, RdReg.ofIndex x = none ↔ 6 ≤ x.toNat := by decide

/-- A row without operands holds one word. -/
theorem eq_of_fixedRow {w pattern : CmdWord} (h : w &&& 0xFFFF = pattern) : pattern = w :=
  h.symm.trans (BitVec.and_allOnes (w := 16))

theorem cmdWord_of_byteRow (op : BitVec 4) {w : CmdWord} (h : w &&& 0xFF00 = cmdWord op 0 0) :
    cmdWord op 0 (immField w) = w := by
  obtain ⟨hop, hx, -⟩ := (and_mask_eq_iff op 0xF 0).1 h
  have hx := (and_allX_eq_zero _).1 hx
  rw [← hop, ← hx, cmdWord_fields]

theorem cmdWord_of_symbolRow (op : BitVec 4) {w : CmdWord} (h : w &&& 0xFFE0 = cmdWord op 0 0) :
    cmdWord op 0 ((w.extractLsb' 0 5).setWidth 8) = w := by
  obtain ⟨hop, hx, himm⟩ := (and_mask_eq_iff op 0xF 0xE0).1 h
  have hx := (and_allX_eq_zero _).1 hx
  have himm := (and_symbolImm_eq_zero _).1 himm
  rw [extract_symbol, setWidth_symbol _ himm, ← hop, ← hx, cmdWord_fields]

theorem encode_of_cvCfgRow {w : CmdWord} (h : w &&& 0xFF00 = 0x7000) :
    encode (.cvCfg (w.extractLsb' 0 4) (w.extractLsb' 4 4)) = w := by
  rw [encode, extract_fromWidth, extract_toWidth, append_widths, cmdWord_of_byteRow 0x7 h]

theorem encode_of_cvFlushRow {w : CmdWord} (h : w &&& 0xFEFF = 0x9000) : encode (.cvFlush (w.getLsbD 8)) = w := by
  obtain ⟨hop, hx, himm⟩ := (and_mask_eq_iff 0x9 0xE 0xFF).1 h
  have hx := (and_padX_eq_zero _).1 hx
  have himm := (and_allImm_eq_zero _).1 himm
  rw [encode, extract_padFlag, padX_eq _ hx, ← hop, ← himm, cmdWord_fields]

theorem encode_of_rdRow {w : CmdWord} {r : RdReg} (h : w &&& 0xF0FF = 0xC000) (hr : RdReg.ofIndex (xField w) = some r) :
    encode (.rd r) = w := by
  obtain ⟨hop, -, himm⟩ := (and_mask_eq_iff 0xC 0 0xFF).1 h
  have himm := (and_allImm_eq_zero _).1 himm
  rw [encode, index_of_ofIndex _ r hr, ← hop, ← himm, cmdWord_fields]

/-! ### The decoder, row by row -/

/-- A word that decodes to a command is that command's own word (R74, R75). -/
theorem reading_of_decode {w : CmdWord} {i : Instr} (h : decode w = .command i) :
    i.wellFormed = true ∧ encode i = w ∧ w &&& i.row.mask = i.row.pattern := by
  unfold decode at h
  split at h
  case h_16 => cases h
  all_goals obtain ⟨hm, hd⟩ := decodeRow_eq_command h
  case h_8 =>
    dsimp only at hd
    split at hd <;> cases hd
    exact ⟨‹_›, encode_of_cvCfgRow hm, hm⟩
  case h_10 => cases hd; exact ⟨rfl, encode_of_cvFlushRow hm, hm⟩
  case h_13 =>
    split at hd <;> cases hd
    exact ⟨rfl, encode_of_rdRow hm ‹_›, hm⟩
  case h_3 => cases hd; exact ⟨rfl, cmdWord_of_symbolRow 0x2 hm, hm⟩
  case h_11 => cases hd; exact ⟨rfl, cmdWord_of_symbolRow 0xA hm, hm⟩
  case h_4 => cases hd; exact ⟨rfl, cmdWord_of_byteRow 0x3 hm, hm⟩
  case h_5 => cases hd; exact ⟨rfl, cmdWord_of_byteRow 0x4 hm, hm⟩
  case h_9 => cases hd; exact ⟨rfl, cmdWord_of_byteRow 0x8 hm, hm⟩
  case h_12 => cases hd; exact ⟨rfl, cmdWord_of_byteRow 0xB hm, hm⟩
  all_goals cases hd; exact ⟨rfl, eq_of_fixedRow hm, hm⟩

/-- The words of R76: OP = 0xF (a), an unused bit that is set (b), a width of CV_CFG outside 1 to 8 (c), an index of RD above 5 (d). -/
def IllegalForm (w : CmdWord) : Prop :=
  opField w = 0xF ∨
    (xField w ≠ 0 ∧ opField w ≠ 0x9 ∧ opField w ≠ 0xC) ∨
    (immField w ≠ 0 ∧ opField w ∈ [0x0, 0x1, 0x5, 0x6, 0x9, 0xC, 0xD, 0xE]) ∨
    (32 ≤ (immField w).toNat ∧ opField w ∈ [0x2, 0xA]) ∨
    (1 < (xField w).toNat ∧ opField w = 0x9) ∨
    (opField w = 0x7 ∧
      ((immField w).toNat % 16 = 0 ∨ 9 ≤ (immField w).toNat % 16 ∨
        (immField w).toNat / 16 = 0 ∨ 9 ≤ (immField w).toNat / 16)) ∨
    (opField w = 0xC ∧ 6 ≤ (xField w).toNat)

theorem opField_eq_iff (w : CmdWord) (op : BitVec 4) : opField w = op ↔ (opField w).toNat = op.toNat := BitVec.toNat_inj.symm

/-- In the row of its OP a word is illegal when an unused bit of X or IMM is set or the row's constraint fails. -/
theorem decodeRow_illegal_iff (op mx : BitVec 4) (mi : Byte) {w : CmdWord} {d : Decoded} (hop : (opField w).toNat = op.toNat) :
    (∃ why, decodeRow w (cmdWord 0xF mx mi) (cmdWord op 0 0) d = .illegal why) ↔
      xField w &&& mx ≠ 0 ∨ immField w &&& mi ≠ 0 ∨ ∃ why, d = .illegal why := by
  have hmatch := and_mask_eq_iff op mx mi (w := w)
  rw [and_iff_right ((opField_eq_iff w op).2 hop)] at hmatch
  rw [← or_assoc, ← not_and_or, ← hmatch]
  obtain ⟨hm, e⟩ | ⟨hm, e⟩ := decodeRow_cases w (cmdWord 0xF mx mi) (cmdWord op 0 0) d <;> rw [e]
  · simp only [hm, not_true_eq_false, false_or]
  · simp only [hm, not_false_eq_true, true_or, Decoded.illegal.injEq, exists_eq']

/-- R76 (c) is the failure of CV_CFG's constraint: `f` is IMM's low half and `t` its high half. -/
theorem not_legalWidths_iff : ∀ imm : Byte, ¬ (legalWidth (imm.setWidth 4) && legalWidth (imm.extractLsb' 4 4)) = true ↔
    imm.toNat % 16 = 0 ∨ 9 ≤ imm.toNat % 16 ∨ imm.toNat / 16 = 0 ∨ 9 ≤ imm.toNat / 16 := by
  decide

theorem ite_command_illegal_iff {c : Prop} [Decidable c] {i : Instr} {why : Illegal} :
    (∃ y, (if c then Decoded.command i else .illegal why) = .illegal y) ↔ ¬ c := by
  by_cases hc : c <;> simp [hc]

/-- Exactly the words of R76 are refused: OP selects the row, whose unused bits and constraint are the conditions for that OP. -/
theorem decode_illegal_iff (w : CmdWord) : (∃ why, decode w = .illegal why) ↔ IllegalForm w := by
  unfold decode
  split
  case h_1 _ h => exact (decodeRow_illegal_iff 0x0 0xF 0xFF h).trans (by simp [IllegalForm, opField_eq_iff, h])
  case h_2 _ h => exact (decodeRow_illegal_iff 0x1 0xF 0xFF h).trans (by simp [IllegalForm, opField_eq_iff, h])
  case h_3 _ h => exact (decodeRow_illegal_iff 0x2 0xF 0xE0 h).trans (by simp [IllegalForm, opField_eq_iff, h])
  case h_4 _ h => exact (decodeRow_illegal_iff 0x3 0xF 0 h).trans (by simp [IllegalForm, opField_eq_iff, h])
  case h_5 _ h => exact (decodeRow_illegal_iff 0x4 0xF 0 h).trans (by simp [IllegalForm, opField_eq_iff, h])
  case h_6 _ h => exact (decodeRow_illegal_iff 0x5 0xF 0xFF h).trans (by simp [IllegalForm, opField_eq_iff, h])
  case h_7 _ h => exact (decodeRow_illegal_iff 0x6 0xF 0xFF h).trans (by simp [IllegalForm, opField_eq_iff, h])
  case h_8 _ h =>
    refine (decodeRow_illegal_iff 0x7 0xF 0 h).trans ?_
    rw [ite_command_illegal_iff, extract_fromWidth, extract_toWidth, not_legalWidths_iff]
    simp [IllegalForm, opField_eq_iff, h]
  case h_9 _ h => exact (decodeRow_illegal_iff 0x8 0xF 0 h).trans (by simp [IllegalForm, opField_eq_iff, h])
  case h_10 _ h => exact (decodeRow_illegal_iff 0x9 0xE 0xFF h).trans (by simp [IllegalForm, opField_eq_iff, h, or_comm])
  case h_11 _ h => exact (decodeRow_illegal_iff 0xA 0xF 0xE0 h).trans (by simp [IllegalForm, opField_eq_iff, h])
  case h_12 _ h => exact (decodeRow_illegal_iff 0xB 0xF 0 h).trans (by simp [IllegalForm, opField_eq_iff, h])
  case h_13 _ h =>
    refine (decodeRow_illegal_iff 0xC 0 0xFF h).trans ?_
    have hindex := ofIndex_eq_none_iff (xField w)
    cases hr : RdReg.ofIndex (xField w) <;> simp_all [IllegalForm, opField_eq_iff]
  case h_14 _ h => exact (decodeRow_illegal_iff 0xD 0xF 0xFF h).trans (by simp [IllegalForm, opField_eq_iff, h])
  case h_15 _ h => exact (decodeRow_illegal_iff 0xE 0xF 0xFF h).trans (by simp [IllegalForm, opField_eq_iff, h])
  case h_16 =>
    have hop : (opField w).toNat = 15 := by have hlt := (opField w).isLt; grind
    simp [IllegalForm, opField_eq_iff, hop]

/-! ### The rows of the table (R74, R75) -/

/-- A row fixes OP, so a word that matches it has the row's OP. -/
theorem opField_of_row {w : CmdWord} {r : OpcodeRow} (hr : r ∈ opcodeRows) (h : w &&& r.mask = r.pattern) :
    opField w = opField r.pattern := by
  have hmask : opField r.mask = 0xF := (by decide : ∀ r ∈ opcodeRows, opField r.mask = 0xF) r hr
  calc opField w = opField w &&& 0xF := (BitVec.and_allOnes (w := 4)).symm
    _ = opField (w &&& r.mask) := by rw [opField_and, hmask]
    _ = opField r.pattern := by rw [h]

theorem opcodeRows_opFields_ne : opcodeRows.Pairwise fun a b => opField a.pattern ≠ opField b.pattern := by decide

end Sys2Proof
end

section
/-! The assembler on the lines of the disassembler, and the words it emits for a mnemonic (30_encoding.md R80, R81). -/

namespace Sys2Proof.Machine

theorem operand_toNat {n : Nat} (v : BitVec n) (k : BitVec n → Instr) : operand n v.toNat k = some [encode (k v)] := by
  simp [operand, v.isLt]

theorem assemble_word (w : CmdWord) : assemble (.word w.toNat) = some [w] := by
  simp [assemble, w.isLt]

/-- The line a command is printed as assembles to the command's word: its operands are in range. -/
theorem assemble_lineOf {i : Instr} (hi : i.wellFormed = true) : assemble (lineOf i) = some [encode i] := by
  cases i with
  | pmSym s => exact operand_toNat s _
  | pmHrph b => exact operand_toNat b _
  | pmHrpl b => exact operand_toNat b _
  | cvCfg f t =>
    obtain ⟨hf, ht⟩ : legalWidth f = true ∧ legalWidth t = true := by simpa [Instr.wellFormed] using hi
    obtain ⟨hf1, hf8⟩ := (legalWidth_iff f).1 hf
    obtain ⟨ht1, ht8⟩ := (legalWidth_iff t).1 ht
    simp [lineOf, assemble, hf1, hf8, ht1, ht8]
  | cvPush v => exact operand_toNat v _
  | cvFlush p => cases p <;> rfl
  | csFwd s => exact operand_toNat s _
  | csRev b => exact operand_toNat b _
  | rd r => cases r <;> rfl
  | _ => rfl

theorem BareMnemonic.instr_wellFormed (m : BareMnemonic) : m.instr.wellFormed = true := by
  cases m <;> rfl

/-- No command of `PM_HRP`'s expansion has a constraint (R81). -/
theorem pmHrp_wellFormed {hrp : List Byte} {i : Instr} (h : i ∈ pmHrp hrp) : i.wellFormed = true := by
  simp only [pmHrp, List.mem_append, List.mem_map, List.mem_singleton] at h
  obtain (⟨b, -, rfl⟩ | rfl) | ⟨b, -, rfl⟩ := h <;> rfl

/-- The words `ws` encode well-formed commands. -/
def EncodesCommands (ws : List CmdWord) : Prop := ∃ is : List Instr, (∀ i ∈ is, i.wellFormed = true) ∧ is.map encode = ws

theorem encodesCommands_singleton {i : Instr} (hi : i.wellFormed = true) : EncodesCommands [encode i] :=
  ⟨[i], by simpa using hi, rfl⟩

theorem EncodesCommands.decode_eq_command {ws : List CmdWord} (h : EncodesCommands ws) {w : CmdWord} (hw : w ∈ ws) :
    ∃ i, decode w = .command i := by
  obtain ⟨is, his, rfl⟩ := h
  obtain ⟨i, hi, rfl⟩ := List.mem_map.1 hw
  exact ⟨i, decode_encode (his i hi)⟩

theorem operand_encodesCommands {n v : Nat} {k : BitVec n → Instr} {ws : List CmdWord} (hk : ∀ x, (k x).wellFormed = true)
    (h : operand n v k = some ws) : EncodesCommands ws := by
  unfold operand at h
  split at h <;> cases h
  exact encodesCommands_singleton (hk _)

theorem legalWidth_ofNat {n : Nat} (h1 : 1 ≤ n) (h8 : n ≤ 8) : legalWidth (BitVec.ofNat 4 n) = true := by
  rw [legalWidth_iff, BitVec.toNat_ofNat, Nat.mod_eq_of_lt (by omega)]
  exact ⟨h1, h8⟩

/-- Every line but `.word` assembles to well-formed commands: the assembler refuses an operand out of its range (R80). -/
theorem assemble_encodesCommands {l : AsmLine} {ws : List CmdWord} (hl : ∀ n, l ≠ .word n) (h : assemble l = some ws) :
    EncodesCommands ws := by
  cases l with
  | bare m => cases h; exact encodesCommands_singleton m.instr_wellFormed
  | pmSym s => exact operand_encodesCommands (fun _ => rfl) h
  | csFwd s => exact operand_encodesCommands (fun _ => rfl) h
  | pmHrph b => exact operand_encodesCommands (fun _ => rfl) h
  | pmHrpl b => exact operand_encodesCommands (fun _ => rfl) h
  | csRev b => exact operand_encodesCommands (fun _ => rfl) h
  | cvPush v => exact operand_encodesCommands (fun _ => rfl) h
  | cvCfg f t =>
    simp only [assemble] at h
    split at h <;> cases h
    obtain ⟨hf1, hf8, ht1, ht8⟩ := ‹1 ≤ f ∧ f ≤ 8 ∧ 1 ≤ t ∧ t ≤ 8›
    exact encodesCommands_singleton (by simp [Instr.wellFormed, legalWidth_ofNat hf1 hf8, legalWidth_ofNat ht1 ht8])
  | cvFlush p =>
    simp only [assemble] at h
    split at h <;> cases h
    exact encodesCommands_singleton rfl
  | rd r =>
    simp only [assemble] at h
    split at h
    · obtain ⟨r, -, rfl⟩ := Option.map_eq_some_iff.1 h
      exact encodesCommands_singleton rfl
    · cases h
  | pmHrp hrp => cases h; exact ⟨pmHrp hrp, fun _ => pmHrp_wellFormed, rfl⟩
  | word n => exact absurd rfl (hl n)

end Sys2Proof.Machine
end

section
namespace Sys2Proof

open Sys2Proof.Machine

/-- Settles O1: each row's operands come back from the fields that `encode` puts them in. -/
theorem decodeInvertsEncode : Obligations.DecodeInvertsEncode :=
  fun _ hi => decode_encode hi

/-- Settles O2: the word agrees with its row outside the operands' bits, and the operands are the word's own bits there. -/
theorem eachLegalWordHasOneReading : Obligations.EachLegalWordHasOneReading :=
  fun _ _ h => reading_of_decode h

/-- Settles O3: the refused words row by row, and error entry for such a word. -/
theorem illegalWordsRaiseIllegalCmd : Obligations.IllegalWordsRaiseIllegalCmd := by
  refine ⟨decode_illegal_iff, fun s w why hill he => ?_⟩
  obtain ⟨herrl, hecode, hvok, hres⟩ := s.raise_flags .illegalCmd w
  exact ⟨_, runWord_of_illegal_unlatched hill he, herrl, hecode, hvok, hres, s.raise_frame .illegalCmd w⟩

/-- Settles O4: the latch drops the word, which takes it from the pending commands. -/
theorem illegalWordsAreDroppedWhileLatched : Obligations.IllegalWordsAreDroppedWhileLatched :=
  fun _ _ _ hill he => runWord_of_illegal_latched hill he

/-- Settles O60: a legal word prints as its one reading's line, an illegal one as `.word`; and a mnemonic's words encode well-formed
commands, which decode. -/
theorem assemblerInvertsDisassembler : Obligations.AssemblerInvertsDisassembler := by
  refine ⟨fun w => ?_, fun l ws hl h w hw => (assemble_encodesCommands hl h).decode_eq_command hw⟩
  unfold disassemble
  cases hd : decode w with
  | command i =>
    obtain ⟨hi, hw, -⟩ := reading_of_decode hd
    exact (assemble_lineOf hi).trans (by rw [hw])
  | illegal why => exact assemble_word w

/-- Settles O5: fifteen closed evaluations of the decoder. -/
theorem specWordsDecode : Obligations.SpecWordsDecode := by
  unfold Obligations.SpecWordsDecode
  decide

/-- Settles O6: a word that matched two rows would have the OP of both, and no two rows have one OP. -/
theorem opcodeRowsDoNotOverlap : Obligations.OpcodeRowsDoNotOverlap := by
  refine opcodeRows_opFields_ne.imp_of_mem fun ha hb hne w => ?_
  rintro ⟨hwa, hwb⟩
  exact hne ((opField_of_row ha hwa).symm.trans (opField_of_row hb hwb))

end Sys2Proof
end

section
/-! The outcomes of the BCU's commands while the latch is clear, one per case of their pseudocode (41_bitconv.md R101, R102, R104). -/

namespace Sys2Proof.Machine

variable {s : State}

theorem State.commit_of_fits {ws : List RspWord} (h : s.Fits ws.length) (write : State → State) :
    s.commit ws write = .next ((write s).pushAll ws).retire :=
  if_pos ((s.hasRoom_iff _).2 h)

/-- An outcome that is an error entry (60_exceptions.md R263), field by field and with its frame. -/
theorem State.exists_of_raise {r : Result} {e : EngineError} {w : CmdWord} (h : r = .next (s.raise e w)) :
    ∃ t, r = .next t ∧ t.errl = true ∧ t.ecode = e.code ∧ t.vok = s.vok ∧ t.statusReserved = s.statusReserved ∧
      t = { s with status := t.status, ecmd := w, cmds := s.cmds.tail } := by
  obtain ⟨herrl, hecode, hvok, hres⟩ := s.raise_flags e w
  exact ⟨_, h, herrl, hecode, hvok, hres, s.raise_frame e w⟩

theorem wellFormed_cvCfg_iff (f t : BitVec 4) :
    (Instr.cvCfg f t).wellFormed = true ↔ 1 ≤ f.toNat ∧ f.toNat ≤ 8 ∧ 1 ≤ t.toNat ∧ t.toNat ≤ 8 := by
  rw [Instr.wellFormed, Bool.and_eq_true, legalWidth_iff, legalWidth_iff, and_assoc]

theorem cfgOf_eq_ofNat : ∀ f t, cfgOf f t = BitVec.ofNat 8 (16 * t.toNat + f.toNat) := by decide

theorem exec_cvCfg_of_wellFormed (he : s.errl = false) {f t : BitVec 4} (hw : (Instr.cvCfg f t).wellFormed = true) :
    exec (.cvCfg f t) s = .next (State.retire { s with cfg := cfgOf f t, acc := 0, cnt := 0 }) := by
  rw [exec, execCvCfg, State.unlessLatched_clear he]
  exact (if_pos hw).trans (s.commit_nil _)

theorem exec_cvCfg_of_illFormed (he : s.errl = false) {f t : BitVec 4} (hw : ¬ (Instr.cvCfg f t).wellFormed = true) :
    exec (.cvCfg f t) s = .next (s.raise .illegalCmd (encode (.cvCfg f t))) := by
  rw [exec, execCvCfg, State.unlessLatched_clear he]
  exact if_neg hw

theorem exec_cvPush_of_wide (he : s.errl = false) {v : Byte} (hv : 2 ^ s.fromW ≤ v.toNat) :
    exec (.cvPush v) s = .next (s.raise .invalidValue (encode (.cvPush v))) := by
  rw [exec, execCvPush_eq, State.unlessLatched_clear he, if_pos hv]

theorem exec_cvPush_of_fits (he : s.errl = false) {v : Byte} (hv : v.toNat < 2 ^ s.fromW)
    (hfit : s.Fits (s.cvPushWords v).length) :
    exec (.cvPush v) s = .next ((s.cvPushWrite v).pushAll ((s.cvPushWords v).map fun x => BitVec.ofNat 32 x)).retire := by
  rw [← List.length_map fun x => BitVec.ofNat 32 x] at hfit
  rw [exec, execCvPush_eq, State.unlessLatched_clear he, if_neg (not_le.2 hv), State.commit_of_fits hfit]

theorem cvPushWords_length (hto : 1 ≤ s.toW) (v : Byte) : (s.cvPushWords v).length = (s.cnt.toNat + s.fromW) / s.toW :=
  emitWords_length _ _ hto _

/-- CV_FLUSH ends a conversion as D0's `convertEnd` does (R104). -/
theorem exec_cvFlush_of_ok (he : s.errl = false) {pad : Bool} {ws : List Nat}
    (h : convertEnd s.fromW s.toW pad s.acc.toNat s.cnt.toNat = .ok ws) (hfit : s.Fits ws.length) :
    exec (.cvFlush pad) s =
      .next (State.pushAll { s with acc := 0, cnt := 0 } (ws.map fun x => BitVec.ofNat 32 x)).retire := by
  rw [← List.length_map fun x => BitVec.ofNat 32 x] at hfit
  rw [exec, execCvFlush, State.unlessLatched_clear he]
  unfold convertEnd at h
  cases pad with
  | true =>
    obtain rfl := Except.ok.inj h
    rw [← State.commit_of_fits hfit fun s => { s with acc := 0, cnt := 0 }, apply_ite (List.map _)]
    rfl
  | false =>
    rw [if_neg Bool.false_ne_true] at h ⊢
    split at h
    · cases h
    · cases h
      rename_i hgood
      rw [if_neg hgood, State.commit_nil, List.map_nil, State.pushAll_nil]

theorem exec_cvFlush_of_error (he : s.errl = false) {pad : Bool} {e : EngineError}
    (h : convertEnd s.fromW s.toW pad s.acc.toNat s.cnt.toNat = .error e) :
    exec (.cvFlush pad) s = .next (s.raise e (encode (.cvFlush pad))) := by
  rw [exec, execCvFlush, State.unlessLatched_clear he]
  unfold convertEnd at h
  cases pad with
  | true => cases h
  | false =>
    rw [if_neg Bool.false_ne_true] at h ⊢
    split at h
    · cases h
      rename_i hbad
      rw [if_pos hbad]
    · cases h

theorem convertEnd_pad_eq (f t acc cnt : Nat) :
    convertEnd f t true acc cnt = .ok (if 0 < cnt then [residue t acc cnt] else []) := rfl

/-- Unpadded, the bits left over are the low CNT bits of the accumulator: the test of the shifted residue is one of theirs (R104). -/
theorem convertEnd_noPad_eq (f : Nat) {t cnt : Nat} (acc : Nat) (h : cnt ≤ t) :
    convertEnd f t false acc cnt = if cnt < f ∧ acc % 2 ^ cnt = 0 then .ok [] else .error .invalidPadding := by
  have hzero : residue t acc cnt = 0 ↔ acc % 2 ^ cnt = 0 := by simp [residue_mod _ _ _ h]
  have hbad : f ≤ cnt ∨ residue t acc cnt ≠ 0 ↔ ¬ (cnt < f ∧ acc % 2 ^ cnt = 0) := by rw [← hzero]; omega
  rw [convertEnd, if_neg Bool.false_ne_true, if_congr hbad rfl rfl, ite_not]

end Sys2Proof.Machine
end

section
namespace Sys2Proof

open Sys2Proof.Machine

/-- Settles O27: the two outcomes of CV_CFG, with CFG and the command word as numbers. -/
theorem cvCfgStartsAConversion : Obligations.CvCfgStartsAConversion := by
  intro s f t he
  rw [← wellFormed_cvCfg_iff, ← cfgOf_eq_ofNat, ← encode_cvCfg]
  refine ⟨fun hw => ?_, fun hw => State.exists_of_raise (exec_cvCfg_of_illFormed he hw)⟩
  exact ⟨_, exec_cvCfg_of_wellFormed he hw, congrArg BitVec.toNat (cfgOf_from f t), congrArg BitVec.toNat (cfgOf_to f t), rfl⟩

/-- Settles O28: the loop emits the groups of TO bits of the shifted accumulator, and CNT is the remainder. -/
theorem cvPushShiftsInAndEmits : Obligations.CvPushShiftsInAndEmits := by
  intro s v n a he hs hv hn ha hfit
  obtain ⟨-, ⟨hto, -⟩, -, -⟩ := hs
  subst hn
  have hacc : shiftIn s.fromW s.toW s.acc.toNat v.toNat = a := (shiftIn_eq _ _ _ _ hv).trans ha.symm
  rw [← cvPushWords_length hto v] at hfit
  rw [exec_cvPush_of_fits he hv hfit, State.cvPushWords, State.cvPushWrite, hacc, emitRest_eq _ hto _ _ le_rfl,
    emitWords_eq _ _ hto _ _ le_rfl, List.map_map]
  simp only [Function.comp_def, Nat.shiftRight_eq_div_pow]
  rfl

/-- Settles O29: the error entry of CV_PUSH, with the command word as a number. -/
theorem cvPushOfWideValueRaises : Obligations.CvPushOfWideValueRaises := by
  intro s v he hv
  rw [← encode_cvPush]
  exact State.exists_of_raise (exec_cvPush_of_wide he hv)

/-- Settles O30: with padding the conversion ends with one more word if bits are left over. -/
theorem cvFlushPadEmitsTheResidue : Obligations.CvFlushPadEmitsTheResidue := by
  intro s he hs
  obtain ⟨-, -, hcnt, -⟩ := hs
  have hend := convertEnd_pad_eq s.fromW s.toW s.acc.toNat s.cnt.toNat
  refine ⟨fun hc => ?_, fun hc hroom => ?_⟩
  · rw [if_neg (by simp [hc])] at hend
    rw [exec_cvFlush_of_ok he hend (.inl rfl), List.map_nil, State.pushAll_nil]
    rfl
  · rw [if_pos hc, residue_mod _ _ _ hcnt.le] at hend
    exact exec_cvFlush_of_ok he hend (.inr hroom)

/-- Settles O31: without padding the conversion ends, or is an error, by the low CNT bits of ACC. -/
theorem cvFlushNoPadChecksTheResidue : Obligations.CvFlushNoPadChecksTheResidue := by
  intro s he hs
  obtain ⟨-, -, hcnt, -⟩ := hs
  have hend := convertEnd_noPad_eq s.fromW s.acc.toNat hcnt.le
  refine ⟨fun hgood => ?_, fun hbad => ?_⟩
  · rw [if_pos hgood] at hend
    rw [exec_cvFlush_of_ok he hend (.inl rfl), List.map_nil, State.pushAll_nil]
    rfl
  · rw [if_neg hbad] at hend
    exact State.exists_of_raise (exec_cvFlush_of_error he hend)

/-- Settles O35: the bits of the output are those of the input and the filling, so the lengths are tied by one equation; unpadded,
the bits left over are the input's number of bits modulo 8. -/
theorem conversionCounts : Obligations.ConversionCounts := by
  refine ⟨fun data hdata => ?_, fun data ws hok => ?_, fun data hdata hmod => ?_⟩
  · obtain ⟨⟨ws, n, hok, hn, -, hbits⟩, -⟩ :=
      (convertRegroupsBitsMsbFirst 8 5 data (by decide) (by decide) (by decide) (by decide)).1 hdata
    refine ⟨ws, hok, ?_⟩
    have hlen : 5 * ws.length = 8 * data.length + n := by simpa using congrArg List.length hbits
    omega
  · obtain ⟨hnarrow, hwide⟩ := convertRegroupsBitsMsbFirst 5 8 data (by decide) (by decide) (by decide) (by decide)
    have hdata : ∀ v ∈ data, v < 2 ^ 5 := by
      by_contra hex
      push Not at hex
      cases (hwide hex false).symm.trans hok
    obtain ⟨-, n, hn, -, hbits⟩ := ((hnarrow hdata).2 ws).1 hok
    have hlen : 5 * data.length = 8 * ws.length + n := by simpa using congrArg List.length hbits
    omega
  · obtain ⟨ws, acc, cnt, hcnt, -, hbits, hconv⟩ := convertFrom_bits (f := 5) (t := 8) (by decide) data hdata 0 0 (by decide)
    have hlen : 8 * ws.length + cnt = 5 * data.length := by simpa using congrArg List.length hbits
    rw [convert, hconv, convertEnd_noPad_eq 5 acc hcnt.le, if_neg (by omega)]
    rfl

end Sys2Proof
end

section
/-! A conversion the host issues, command by command (41_bitconv.md R105, 48_host_codec.md R214, R215). -/

namespace Sys2Proof.Machine

/-! ### What the host makes of the engine's errors -/

/-- The answer of a host call that an engine error ends (R214). -/
def EngineError.answer : EngineError → CallResult (List RspWord)
  | .illegalCmd => .fault .hostIllegalCmd
  | .invalidValue => .error .invalidValueForConvertBits
  | .invalidPadding => .error .invalidPaddingData

/-- The answer of a host call for the result of a conversion: its words, or its error (R105, R214). -/
def conversionAnswer : Except EngineError (List Nat) → CallResult (List RspWord)
  | .ok ws => .ok (ws.map fun x => BitVec.ofNat 32 x)
  | .error e => e.answer

/-- An answer with the words `ws` before its own; a failure has no words (R211). -/
def CallResult.prepend (ws : List RspWord) : CallResult (List RspWord) → CallResult (List RspWord)
  | .ok ws' => .ok (ws ++ ws')
  | .error e => .error e
  | .fault f => .fault f

theorem CallResult.nil_prepend (r : CallResult (List RspWord)) : r.prepend [] = r := by
  cases r <;> rfl

theorem conversionAnswer_map_append (us : List Nat) (r : Except EngineError (List Nat)) :
    conversionAnswer (r.map (us ++ ·)) = (conversionAnswer r).prepend (us.map fun x => BitVec.ofNat 32 x) := by
  cases r with
  | ok ws => exact congrArg CallResult.ok (List.map_append ..)
  | error e => cases e <;> rfl

theorem State.verdict_of_flags {s : State} {e : EngineError} (he : s.errl = true) (hc : s.ecode = e.code)
    (ws : List RspWord) : s.verdict ws = e.answer := by
  rw [State.verdict, if_pos he, hc]
  cases e <;> rfl

/-! ### One command, and then the rest -/

theorem issueAll_singleton (i : Instr) (s : State) : issueAll [i] s = issue (encode i) s := by
  rw [issueAll, HostCall.andThen]
  split <;> rename_i h <;> rw [h]
  simp [issueAll, HostCall.andThen]

theorem issueAll_cons_answer {i : Instr} {s s' : State} {ws : List RspWord} (h : issue (encode i) s = (.ok ws, s'))
    (is : List Instr) : (issueAll (i :: is) s).1 = (issueAll is s').1.prepend ws := by
  rw [issueAll, HostCall.andThen_of_ok h, HostCall.andThen]
  split <;> rename_i h' <;> rw [h'] <;> rfl

theorem issueAll_cons_of_failure {i : Instr} {s : State} {e : EngineError} (h : (issue (encode i) s).1 = e.answer)
    (is : List Instr) : (issueAll (i :: is) s).1 = e.answer := by
  rw [issueAll, HostCall.andThen]
  split <;> rename_i h' <;> rw [h'] at h
  · cases e <;> cases h
  · exact h
  · exact h

/-- A command that completes gives the host the words it pushes, and leaves its register writes. -/
theorem issue_of_completion {i : Instr} {s u : State} {ws : List RspWord} (hd : decode (encode i) = .command i)
    (hc : s.cmds = []) (h : exec i { s with cmds := [encode i] } = .next (u.pushAll ws).retire) (hq : u.rspq = [])
    (he : u.errl = false) :
    issue (encode i) s = (.ok ws, { u with rspq := [], cmds := u.cmds.tail, popped := u.popped ++ ws }) := by
  have hwords : (u.pushAll ws).retire.rspq = ws := by rw [State.retire_rspq, State.pushAll_rspq, hq, List.nil_append]
  rw [issue_of_exec hd hc h he, hwords]
  rfl

/-- A command that raises an error gives the host that error's answer (R214). -/
theorem issue_of_raise {i : Instr} {s u : State} {e : EngineError} {w : CmdWord} (hd : decode (encode i) = .command i)
    (hc : s.cmds = []) (h : exec i { s with cmds := [encode i] } = .next (u.raise e w)) :
    (issue (encode i) s).1 = e.answer := by
  have hturn : engineTurn (s.hostWrite (encode i)) = .next (u.raise e w) := by
    rw [State.hostWrite, hc, List.nil_append, engineTurn_of_cons rfl, runWord_of_command hd, h]
  obtain ⟨he, hcode, -⟩ := u.raise_flags e w
  rw [issue_of_next hturn]
  exact State.verdict_of_flags he hcode _

/-! ### The commands of a conversion -/

theorem State.Clean.fits {s : State} (hs : s.Clean) {k : Nat} (hk : k ≤ 8) : s.Fits k := by
  obtain ⟨-, hq, -, hd⟩ := hs
  refine .inr ?_
  rw [hq, List.length_nil, Nat.zero_add]
  exact hk.trans hd

theorem State.cvPushWords_length_le {s : State} (hs : s.BcuInRange) {v : Byte} (hv : v.toNat < 2 ^ s.fromW) :
    (s.cvPushWords v).length ≤ 8 := by
  obtain ⟨-, ⟨hto, -⟩, -⟩ := id hs
  have hk := State.pushesOf_le_eight hs (.cvPush v)
  rwa [State.pushesOf, if_neg (not_le.2 hv), ← cvPushWords_length hto v] at hk

theorem State.cvPushWrite_acc_toNat {s : State} (hs : s.BcuInRange) (v : Byte) :
    (s.cvPushWrite v).acc.toNat = shiftIn s.fromW s.toW s.acc.toNat v.toNat := by
  obtain ⟨⟨-, hfrom⟩, ⟨-, hto⟩, -⟩ := hs
  have hlt := (shiftIn_lt s.fromW s.toW s.acc.toNat v.toNat).trans_le
    (Nat.pow_le_pow_right (by decide) (show s.fromW + s.toW - 1 ≤ 15 by omega))
  exact (BitVec.toNat_ofNat ..).trans (Nat.mod_eq_of_lt hlt)

theorem State.cvPushWrite_cnt_toNat {s : State} (hs : s.BcuInRange) (v : Byte) :
    (s.cvPushWrite v).cnt.toNat = emitRest s.toW (s.cnt.toNat + s.fromW) (s.cnt.toNat + s.fromW) := by
  obtain ⟨-, ⟨hlo, hhi⟩, -⟩ := hs
  refine (BitVec.toNat_ofNat ..).trans (Nat.mod_eq_of_lt ?_)
  rw [emitRest_eq _ hlo _ _ le_rfl]
  exact (Nat.mod_lt _ hlo).trans_le (by omega)

/-- CV_CFG hands nothing to the host and leaves the engine ready for the first value, with no bits left over (R101). -/
theorem issue_cvCfg {s : State} (hs : s.Clean) {f t : BitVec 4} (hw : (Instr.cvCfg f t).wellFormed = true) :
    ∃ s', issue (encode (.cvCfg f t)) s = (.ok [], s') ∧ s'.Clean ∧ s'.BcuInRange ∧
      s'.fromW = f.toNat ∧ s'.toW = t.toNat ∧ s'.acc.toNat = 0 ∧ s'.cnt.toNat = 0 := by
  obtain ⟨he, hq, hc, hd⟩ := hs
  obtain ⟨hf, hf', ht, ht'⟩ := (wellFormed_cvCfg_iff f t).1 hw
  have hexec := exec_cvCfg_of_wellFormed (s := { s with cmds := [encode (.cvCfg f t)] }) he hw
  rw [← State.pushAll_nil { s with cfg := _, acc := 0, cnt := 0, cmds := _ }] at hexec
  have hfrom := congrArg BitVec.toNat (cfgOf_from f t)
  have hto := congrArg BitVec.toNat (cfgOf_to f t)
  refine ⟨_, issue_of_completion (decode_encode hw) hc hexec hq he, ⟨he, rfl, rfl, hd⟩, ?_, hfrom, hto, rfl, rfl⟩
  simp only [State.BcuInRange, State.fromW, State.toW, hfrom, hto]
  exact ⟨⟨hf, hf'⟩, ⟨ht, ht'⟩, ht, by positivity⟩

/-- CV_PUSH of a value that is not too wide hands the words of its loop to the host and leaves the engine ready for the next
value (R102). -/
theorem issue_cvPush {s : State} (hs : s.Clean) (hr : s.BcuInRange) {v : Byte} (hv : v.toNat < 2 ^ s.fromW) :
    ∃ s', issue (encode (.cvPush v)) s = (.ok ((s.cvPushWords v).map fun x => BitVec.ofNat 32 x), s') ∧
      s'.Clean ∧ s'.BcuInRange ∧ s'.fromW = s.fromW ∧ s'.toW = s.toW ∧
      s'.acc.toNat = shiftIn s.fromW s.toW s.acc.toNat v.toNat ∧
      s'.cnt.toNat = emitRest s.toW (s.cnt.toNat + s.fromW) (s.cnt.toNat + s.fromW) := by
  have hfit := hs.fits (State.cvPushWords_length_le hr hv)
  obtain ⟨he, hq, hc, hd⟩ := hs
  have hexec := exec_cvPush_of_fits (s := { s with cmds := [encode (.cvPush v)] }) he hv hfit
  exact ⟨_, issue_of_completion (decode_encode rfl) hc hexec hq he, ⟨he, rfl, rfl, hd⟩,
    (Writes.cvPush v _ hv rfl).bcuInRange hr, rfl, rfl, State.cvPushWrite_acc_toNat hr v, State.cvPushWrite_cnt_toNat hr v⟩

theorem convertEnd_length_le {f t acc cnt : Nat} {pad : Bool} {ws : List Nat} (h : convertEnd f t pad acc cnt = .ok ws) :
    ws.length ≤ 1 := by
  cases pad with
  | true =>
    rw [convertEnd_pad_eq] at h
    obtain rfl := Except.ok.inj h
    split <;> simp
  | false =>
    rw [convertEnd, if_neg Bool.false_ne_true] at h
    split at h <;> cases h
    decide

/-- CV_FLUSH gives the host what D0's conversion ends with (R104). -/
theorem issue_cvFlush {s : State} (hs : s.Clean) (pad : Bool) :
    (issue (encode (.cvFlush pad)) s).1 = conversionAnswer (convertEnd s.fromW s.toW pad s.acc.toNat s.cnt.toNat) := by
  obtain ⟨he, hq, hc, -⟩ := id hs
  cases hend : convertEnd s.fromW s.toW pad s.acc.toNat s.cnt.toNat with
  | ok ws =>
    have hfit := hs.fits ((convertEnd_length_le hend).trans (by decide))
    have hexec := exec_cvFlush_of_ok (s := { s with cmds := [encode (.cvFlush pad)] }) he hend hfit
    rw [issue_of_completion (decode_encode rfl) hc hexec hq he]
    rfl
  | error e =>
    exact issue_of_raise (decode_encode rfl) hc
      (exec_cvFlush_of_error (s := { s with cmds := [encode (.cvFlush pad)] }) he hend)

theorem issue_cvPush_of_wide {s : State} (hs : s.Clean) {v : Byte} (hv : 2 ^ s.fromW ≤ v.toNat) :
    (issue (encode (.cvPush v)) s).1 = EngineError.invalidValue.answer := by
  obtain ⟨he, -, hc, -⟩ := hs
  exact issue_of_raise (decode_encode rfl) hc (exec_cvPush_of_wide (s := { s with cmds := [encode (.cvPush v)] }) he hv)

/-- From a clean state with the BCU in range, CV_PUSH of every value and CV_FLUSH give what D0's loop gives from the same accumulator
and counter: each value's words come before those of the rest, and a failure of any of them is the failure of the whole. -/
theorem issueAll_conversion {s : State} (hs : s.Clean) (hr : s.BcuInRange) (data : List Byte) (pad : Bool) :
    (issueAll (data.map .cvPush ++ [.cvFlush pad]) s).1 =
      conversionAnswer (convertFrom s.fromW s.toW pad (data.map fun v => v.toNat) s.acc.toNat s.cnt.toNat) := by
  induction data generalizing s with
  | nil =>
    rw [List.map_nil, List.nil_append, issueAll_singleton]
    exact issue_cvFlush hs pad
  | cons v data ih =>
    rw [List.map_cons, List.cons_append, List.map_cons]
    by_cases hv : v.toNat < 2 ^ s.fromW
    · obtain ⟨s', hissue, hs', hr', hfrom, hto, hacc, hcnt⟩ := issue_cvPush hs hr hv
      rw [issueAll_cons_answer hissue, ih hs' hr', convertFrom_cons_of_lt hv, conversionAnswer_map_append, hfrom, hto, hacc,
        hcnt]
      rfl
    · rw [not_lt] at hv
      rw [convertFrom, if_pos hv]
      exact issueAll_cons_of_failure (issue_cvPush_of_wide hs hv) _

/-- The whole command sequence: CV_CFG sets the widths and starts with nothing in the accumulator (R101, R105). -/
theorem issueAll_convertCommands {s : State} (hs : s.Clean) {f t : BitVec 4} (hw : (Instr.cvCfg f t).wellFormed = true)
    (data : List Byte) (pad : Bool) :
    (issueAll (convertCommands f t data pad) s).1 =
      conversionAnswer (convert (data.map fun v => v.toNat) f.toNat t.toNat pad) := by
  obtain ⟨s', hissue, hs', hr, hfrom, hto, hacc, hcnt⟩ := issue_cvCfg hs hw
  rw [convertCommands, List.append_assoc, List.singleton_append, issueAll_cons_answer hissue, CallResult.nil_prepend,
    issueAll_conversion hs' hr, hfrom, hto, hacc, hcnt, convert]

/-- D0's conversion fails with InvalidValue or InvalidPadding only (R102, R104). -/
theorem convert_ne_illegalCmd {t : Nat} (ht : 1 ≤ t) (f : Nat) (data : List Nat) (pad : Bool) :
    convert data f t pad ≠ .error .illegalCmd := by
  by_cases hdata : ∀ v ∈ data, v < 2 ^ f
  · obtain ⟨ws, acc, cnt, hcnt, -, -, hconv⟩ := convertFrom_bits ht data hdata 0 0 ht
    rw [convert, hconv]
    cases pad with
    | true => rw [convertEnd_pad_eq]; simp [Except.map]
    | false =>
      rw [convertEnd_noPad_eq f acc hcnt.le]
      split <;> simp [Except.map]
  · push Not at hdata
    rw [convert, convertFrom_of_wide hdata]
    simp

end Sys2Proof.Machine
end

section
namespace Sys2Proof

open Sys2Proof.Machine

/-- Settles O33: the host's answer is that of D0's convert, whose failures are the two of R214's errors 12 and 13. -/
theorem engineConvertsLikeConvert : Obligations.EngineConvertsLikeConvert := by
  intro s f t data pad hs hw
  rw [issueAll_convertCommands hs hw]
  obtain ⟨-, -, ht, -⟩ := (wellFormed_cvCfg_iff f t).1 hw
  exact ⟨fun ws h => by rw [h]; rfl, fun h => by rw [h]; rfl, fun h => by rw [h]; rfl, convert_ne_illegalCmd ht _ _ _⟩

end Sys2Proof
end

section
/-! The PM commands while the latch is clear, one outcome each (42_checksum.md R133 to R146). -/

namespace Sys2Proof.Machine

variable {s : State}

theorem exec_pmInit (he : s.errl = false) :
    exec .pmInit s = .next (State.retire { s with chk := chkInit }) := by
  rw [exec, execPmInit, State.unlessLatched_clear he, State.commit_nil]

theorem State.feed_of_clear (he : s.errl = false) (v : Sym) :
    s.feed v = .next (State.retire { s with chk := polyStep s.chk v }) := by
  rw [State.feed, State.unlessLatched_clear he, State.commit_nil]

theorem exec_pmFin_of_fits (he : s.errl = false) (hfit : s.Fits 6) :
    exec .pmFin s = .next (State.pushAll { s with chk := finalChecksum s.chk }
      ((checksumSymbols (finalChecksum s.chk)).map fun v => v.setWidth 32)).retire := by
  rw [exec, execPmFin, State.unlessLatched_clear he]
  exact State.commit_of_fits (by rwa [List.length_map, checksumSymbols_length]) _

theorem exec_pmVfy_of_fits (he : s.errl = false) (hfit : s.Fits 1) :
    exec .pmVfy s = .next (State.pushAll { s with status := statusWithVok s.status (verifies s.chk targetM) }
      [if verifies s.chk targetM then 1 else 0]).retire := by
  rw [exec, execPmVfy, State.unlessLatched_clear he]
  exact State.commit_of_fits hfit _

theorem verifies_iff (c target : Chk) : verifies c target = true ↔ c = target :=
  beq_iff_eq

end Sys2Proof.Machine
end

section
/-! The step of the PME as a linear map over GF(2) (42_checksum.md R131, R149). -/

namespace Sys2Proof.Machine

/-- What the syndrome bits `b` add to a step (R131): GEN[i] for each set bit i. -/
def syndromeSum (b : BitVec 5) : Chk :=
  (if b.getLsbD 0 then genConst 0 else 0) ^^^ (if b.getLsbD 1 then genConst 1 else 0) ^^^
  (if b.getLsbD 2 then genConst 2 else 0) ^^^ (if b.getLsbD 3 then genConst 3 else 0) ^^^
  (if b.getLsbD 4 then genConst 4 else 0)

/-- A step is the shifted state, the value, and what the syndrome adds (R131). -/
theorem polyStep_eq_syndromeSum (c : Chk) (v : Sym) :
    polyStep c v = (c <<< 5) ^^^ v.setWidth 30 ^^^ syndromeSum (c.extractLsb' 25 5) := by
  simp only [polyStep_eq, syndromeSum, BitVec.getLsbD_extractLsb', BitVec.xor_assoc]
  rfl

theorem syndromeSum_zero : syndromeSum 0 = 0 := by decide

theorem syndromeSum_xor : ∀ a b : BitVec 5, syndromeSum (a ^^^ b) = syndromeSum a ^^^ syndromeSum b := by decide

/-- The low symbols of the five constants are linearly independent: only the zero syndrome leaves bits 4:0 alone. -/
theorem eq_zero_of_syndromeSum_low : ∀ b : BitVec 5, (syndromeSum b).extractLsb' 0 5 = 0 → b = 0 := by decide

theorem polyStep_xor (c1 c2 : Chk) (v1 v2 : Sym) :
    polyStep (c1 ^^^ c2) (v1 ^^^ v2) = polyStep c1 v1 ^^^ polyStep c2 v2 := by
  simp only [polyStep_eq_syndromeSum, BitVec.shiftLeft_xor_distrib, BitVec.setWidth_xor, BitVec.extractLsb'_xor, syndromeSum_xor]
  ac_rfl

/-- Nothing is shifted into the low symbol: it is the value and what the syndrome adds. -/
theorem polyStep_low (c : Chk) (v : Sym) :
    (polyStep c v).extractLsb' 0 5 = v ^^^ (syndromeSum (c.extractLsb' 25 5)).extractLsb' 0 5 := by
  rw [polyStep_eq_syndromeSum]
  ext i hi
  simp [hi, Nat.lt_of_lt_of_le hi (show 5 ≤ 30 by decide)]

/-- A state is its low 25 bits, which a step shifts up, and its syndrome. -/
theorem eq_zero_of_shiftLeft_of_syndrome {c : Chk} (hshift : c <<< 5 = 0) (hsyn : c.extractLsb' 25 5 = 0) : c = 0 := by
  ext i hi
  by_cases hlow : i < 25
  · have hbit := congrArg (fun x : Chk => x.getLsbD (5 + i)) hshift
    simpa [show 5 + i < 30 by omega, hi] using hbit
  · have hbit := congrArg (fun x : BitVec 5 => x.getLsbD (i - 25)) hsyn
    simpa [show i - 25 < 5 by omega, show 25 + (i - 25) = i by omega, hi] using hbit

/-- Only the zero state steps to zero on the value 0: its syndrome is zero by the low symbol, and then nothing was shifted up. -/
theorem eq_zero_of_polyStep_zero {c : Chk} (h : polyStep c 0 = 0) : c = 0 := by
  have hsyn : c.extractLsb' 25 5 = 0 := by
    apply eq_zero_of_syndromeSum_low
    have hlow := polyStep_low c 0
    rw [h] at hlow
    simpa using hlow.symm
  rw [polyStep_eq_syndromeSum, hsyn, syndromeSum_zero] at h
  exact eq_zero_of_shiftLeft_of_syndrome (by simpa using h) hsyn

theorem polyStep_injective (v : Sym) : Function.Injective fun c : Chk => polyStep c v := by
  intro c1 c2 h
  have hdiff : polyStep (c1 ^^^ c2) 0 = 0 := by
    calc polyStep (c1 ^^^ c2) 0
      _ = polyStep (c1 ^^^ c2) (v ^^^ v) := by rw [BitVec.xor_self]; rfl
      _ = 0 := by rw [polyStep_xor]; exact BitVec.xor_eq_zero_iff.2 h
  exact BitVec.xor_eq_zero_iff.1 (eq_zero_of_polyStep_zero hdiff)

/-- A value fed to a sum of states acts on one of the summands, and zeros on the other. -/
theorem polyFeed_xor (c d : Chk) (vs : List Sym) :
    polyFeed (c ^^^ d) vs = polyFeed c (List.replicate vs.length 0) ^^^ polyFeed d vs := by
  induction vs generalizing c d with
  | nil => rfl
  | cons v vs ih =>
    have hstep : polyStep (c ^^^ d) v = polyStep c 0 ^^^ polyStep d v := by simp [← polyStep_xor]
    simp only [polyFeed_cons, List.length_cons, List.replicate_succ, hstep, ih]

/-- The next symbol of `x` joins those above it: nothing is in the syndrome bits yet. -/
theorem polyStep_ushiftRight (x : Chk) (n : Nat) : polyStep (x >>> (n + 5)) (x.extractLsb' n 5) = x >>> n := by
  have hsyn : (x >>> (n + 5)).extractLsb' 25 5 = 0 := by
    ext i hi
    simp [BitVec.getLsbD_of_ge x (n + 5 + (25 + i)) (by omega)]
  rw [polyStep_eq_syndromeSum, hsyn, syndromeSum_zero]
  ext i hi
  by_cases hlow : i < 5
  · simp [hlow]
  · simp [hlow, show n + 5 + (i - 5) = n + i by omega]

/-- From the zero state, the six symbols of a checksum put it together again (R143). -/
theorem polyFeed_zero_checksumSymbols (x : Chk) : polyFeed 0 (checksumSymbols x) = x := by
  have hzero : (0 : Chk) = x >>> (25 + 5) := (BitVec.ushiftRight_eq_zero le_rfl).symm
  simp only [checksumSymbols, List.range, List.range.loop, List.map_cons, List.map_nil, polyFeed_cons, polyFeed_nil]
  rw [hzero, polyStep_ushiftRight x 25, polyStep_ushiftRight x 20, polyStep_ushiftRight x 15, polyStep_ushiftRight x 10,
    polyStep_ushiftRight x 5, polyStep_ushiftRight x 0, BitVec.ushiftRight_zero]

/-- The low 5 bits of a symbol's response word are the symbol (R143). -/
theorem low_symbols_of_words (vs : List Sym) :
    ((vs.map fun v => v.setWidth 32 : List RspWord).map fun w => w.setWidth 5) = vs := by
  simp [Function.comp_def]

/-- R148, on the states: the symbols of the final checksum lead to M. -/
theorem polyFeed_checksumSymbols_finalChecksum (c : Chk) : polyFeed c (checksumSymbols (finalChecksum c)) = targetM := by
  calc polyFeed c (checksumSymbols (finalChecksum c))
    _ = polyFeed (c ^^^ 0) (checksumSymbols (finalChecksum c)) := by simp
    _ = polyFeed c (List.replicate 6 0) ^^^ finalChecksum c := by
      rw [polyFeed_xor, checksumSymbols_length, polyFeed_zero_checksumSymbols]
    _ = targetM := by rw [finalChecksum, ← BitVec.xor_assoc, BitVec.xor_self]; simp

end Sys2Proof.Machine
end

section
/-! The PM command sequences the host issues (42_checksum.md R140, R144, R147; 48_host_codec.md R215). -/

namespace Sys2Proof.Machine

/-- The command `i` is one of those that feed CHK, and `v` is the value it feeds (R134, R136, R138). -/
def Feeds (i : Instr) (v : Sym) : Prop := i.wellFormed = true ∧ ∀ s : State, exec i s = s.feed v

theorem feeds_pmSym (v : Sym) : Feeds (.pmSym v) v := ⟨rfl, fun _ => rfl⟩

theorem feeds_pmHrph (b : Byte) : Feeds (.pmHrph b) (hrpHigh b) := ⟨rfl, fun _ => rfl⟩

theorem feeds_pmHrpl (b : Byte) : Feeds (.pmHrpl b) (hrpLow b) := ⟨rfl, fun _ => rfl⟩

theorem feeds_map {α : Type} {i : α → Instr} {v : α → Sym} (h : ∀ a, Feeds (i a) (v a)) (as : List α) :
    List.Forall₂ Feeds (as.map i) (as.map v) := by
  rw [List.forall₂_map_left_iff, List.forall₂_map_right_iff, List.forall₂_same]
  exact fun a _ => h a

theorem feeds_pmSyms (d : List Sym) : List.Forall₂ Feeds (d.map .pmSym) d := by
  simpa using feeds_map feeds_pmSym d

/-- PM_HRP feeds hrpExpand (R140). -/
theorem feeds_pmHrp (hrp : List Byte) : List.Forall₂ Feeds (pmHrp hrp) (hrpExpand hrp) :=
  List.rel_append (List.rel_append (feeds_map feeds_pmHrph hrp) (.cons (feeds_pmSym 0) .nil)) (feeds_map feeds_pmHrpl hrp)

variable {s : State}

/-- A command whose whole effect is a new CHK gives the host no word and leaves everything else as it was. -/
theorem issue_of_chkWrite (hs : s.Clean) {i : Instr} (hi : i.wellFormed = true) {c : Chk}
    (h : exec i { s with cmds := [encode i] } = .next (State.retire { s with cmds := [encode i], chk := c })) :
    issue (encode i) s = (.ok [], { s with chk := c }) := by
  obtain ⟨he, hq, hc, -⟩ := hs
  rw [← State.pushAll_nil { s with cmds := _, chk := c }] at h
  rw [issue_of_completion (decode_encode hi) hc h hq he]
  simp [hq, hc]

theorem issue_pmInit (hs : s.Clean) : issue (encode .pmInit) s = (.ok [], { s with chk := chkInit }) := by
  obtain ⟨he, -⟩ := id hs
  exact issue_of_chkWrite hs rfl (exec_pmInit (s := { s with cmds := [encode .pmInit] }) he)

theorem issue_of_feeds (hs : s.Clean) {i : Instr} {v : Sym} (hi : Feeds i v) :
    issue (encode i) s = (.ok [], { s with chk := polyStep s.chk v }) := by
  obtain ⟨he, -⟩ := id hs
  obtain ⟨hwf, hexec⟩ := hi
  exact issue_of_chkWrite hs hwf
    ((hexec _).trans (State.feed_of_clear (s := { s with cmds := [encode i] }) he v))

theorem issueAll_of_feeds {is : List Instr} {vs : List Sym} (h : List.Forall₂ Feeds is vs) (hs : s.Clean) :
    issueAll is s = (.ok [], { s with chk := polyFeed s.chk vs }) := by
  induction h generalizing s with
  | nil => rfl
  | @cons i v is vs hi _ ih =>
    exact issueAll_cons_of_ok (issue_of_feeds hs hi) (ih (s := { s with chk := polyStep s.chk v }) hs)

/-- PM_FIN gives the host the symbols of the final checksum (R142, R143). -/
theorem issue_pmFin (hs : s.Clean) :
    (issue (encode .pmFin) s).1 = .ok ((checksumSymbols (finalChecksum s.chk)).map fun v => v.setWidth 32) := by
  have hfit := hs.fits (k := 6) (by decide)
  obtain ⟨he, hq, hc, -⟩ := hs
  have hexec := exec_pmFin_of_fits (s := { s with cmds := [encode .pmFin] }) he hfit
  rw [issue_of_completion (decode_encode rfl) hc hexec hq he]

/-- PM_VFY gives the host VOK, and no error (R146). -/
theorem issue_pmVfy (hs : s.Clean) :
    (issue (encode .pmVfy) s).1 = .ok [if verifies s.chk targetM then 1 else 0] := by
  have hfit := hs.fits (k := 1) (by decide)
  obtain ⟨he, hq, hc, -⟩ := hs
  have hexec := exec_pmVfy_of_fits (s := { s with cmds := [encode .pmVfy] }) he hfit
  obtain ⟨hflag, -⟩ := s.withVok_flags (verifies s.chk targetM)
  rw [issue_of_completion (decode_encode rfl) hc hexec hq (hflag.trans he)]

/-- PM_INIT, PM_HRP and the symbols of `d` leave D0's polyMod in CHK: the sequence answers what its last command answers there. -/
theorem issueAll_polyMod_then (hs : s.Clean) (hrp : List Byte) (d : List Sym) {i : Instr} {ws : List RspWord}
    (h : (issue (encode i) { s with chk := polyMod (hrpExpand hrp ++ d) }).1 = .ok ws) :
    (issueAll ([.pmInit] ++ pmHrp hrp ++ d.map .pmSym ++ [i]) s).1 = .ok ws := by
  have hinit := (issueAll_singleton .pmInit s).trans (issue_pmInit hs)
  have hfeed := issueAll_of_feeds (s := { s with chk := chkInit }) (List.rel_append (feeds_pmHrp hrp) (feeds_pmSyms d)) hs
  have hlast : issueAll [i] { s with chk := polyMod (hrpExpand hrp ++ d) } = (.ok ws, _) :=
    (issueAll_singleton i _).trans (Prod.ext h rfl)
  rw [List.append_assoc [Instr.pmInit], issueAll_append_of_ok (issueAll_append_of_ok hinit hfeed) hlast]
  rfl

/-- D0's createChecksum takes PM_FIN's six zero steps as six zeros behind the data. -/
theorem createChecksum_eq (hrp : List Byte) (d : List Sym) :
    createChecksum hrp d = checksumSymbols (finalChecksum (polyMod (hrpExpand hrp ++ d))) := by
  rw [createChecksum, finalChecksum, polyMod, polyMod, polyFeed_append]

end Sys2Proof.Machine
end

section
namespace Sys2Proof

open Sys2Proof.Machine

/-- Settles O17: PM_SYM feeds its symbol, and a step is R131's one expression. -/
theorem pmSymTakesOneStep : Obligations.PmSymTakesOneStep := by
  intro s v he
  rw [← polyStep_eq]
  exact State.feed_of_clear he v

/-- Settles O20: PM_FIN's checksum and symbols, written out. -/
theorem pmFinPushesSixSymbols : Obligations.PmFinPushesSixSymbols := by
  intro s c he hfit hc
  subst hc
  exact exec_pmFin_of_fits he (.inr hfit)

/-- Settles O21: the word pushed is the VOK written, and writing VOK leaves the other fields of STATUS. -/
theorem pmVfyWritesAndPushesVok : Obligations.PmVfyWritesAndPushesVok := by
  intro s he hfit
  obtain ⟨herrl, hecode, hres⟩ := s.withVok_flags (verifies s.chk targetM)
  refine ⟨_, exec_pmVfy_of_fits he (.inr hfit), statusWithVok_vok _ _, herrl.trans he, hecode, hres, ?_⟩
  rw [if_congr (verifies_iff s.chk targetM) rfl rfl]
  rfl

/-- Settles O22: linear by its three parts, and injective, which is enough on finitely many states. -/
theorem polyStepIsLinearAndBijective : Obligations.PolyStepIsLinearAndBijective :=
  ⟨polyStep_xor, fun v => Finite.injective_iff_bijective.1 (polyStep_injective v)⟩

/-- Settles O23: the low symbols of the words pushed are the symbols of the final checksum. -/
theorem createdChecksumVerifies : Obligations.CreatedChecksumVerifies := by
  intro s he hfit
  refine ⟨_, _, exec_pmFin_of_fits he (.inr hfit), rfl, ?_⟩
  rw [low_symbols_of_words]
  exact polyFeed_checksumSymbols_finalChecksum s.chk

/-- Settles O24: each command feeds one value of hrpExpand. -/
theorem pmHrpFeedsHrpExpand : Obligations.PmHrpFeedsHrpExpand := by
  intro s hrp hs
  rw [issueAll_of_feeds (feeds_pmHrp hrp) hs, hrpExpand]
  simp only [← hrpHigh_eq, ← hrpLow_eq]

/-- Settles O25: PM_FIN after the sequence that leaves polyMod in CHK. -/
theorem engineCreatesTheChecksum : Obligations.EngineCreatesTheChecksum := by
  intro s h d hs
  rw [createChecksum_eq]
  exact issueAll_polyMod_then hs h d (issue_pmFin (s := { s with chk := _ }) hs)

/-- Settles O26: PM_VFY after the sequence that leaves polyMod in CHK. -/
theorem engineVerifiesTheChecksum : Obligations.EngineVerifiesTheChecksum := by
  intro s h d hs
  exact issueAll_polyMod_then hs h d (issue_pmVfy (s := { s with chk := _ }) hs)

/-- Settles O16: PM_INIT's one register write. -/
theorem pmInitSetsChkToOne : Obligations.PmInitSetsChkToOne :=
  fun _ he => exec_pmInit he

/-- Settles O18: three closed evaluations of the step. -/
theorem stepCornerVectors : Obligations.StepCornerVectors := by
  unfold Obligations.StepCornerVectors
  decide

/-- Settles O19: the two halves of the byte as numbers. -/
theorem pmHrpFeedsTheTwoHalves : Obligations.PmHrpFeedsTheTwoHalves := by
  intro s b he
  rw [← hrpHigh_eq, ← hrpLow_eq]
  exact ⟨State.feed_of_clear he _, State.feed_of_clear he _⟩

end Sys2Proof
end

section
/-! The two ROM tables, and the outcomes of the LUT's commands while the latch is clear (20_memory.md R51, R52; 43_charset.md). -/

namespace Sys2Proof.Machine

/-! ### The tables -/

/-- ROM_FWD holds the alphabet, character by character (R51), here as CS_FWD's words. -/
theorem romFwd_setWidth_eq : ∀ v : Sym, (romFwd v).setWidth 32 =
    BitVec.ofNat 32 ("qpzry9x8gf2tvdw0s3jn54khce6mua7l".toList.getD v.toNat ' ').toNat := by
  rw [String.toList_ofList]
  decide

theorem romRev_romFwd : ∀ v : Sym, romRev (romFwd v) = v.setWidth 8 := by decide

/-- Each valid entry of ROM_REV is a character of ROM_FWD with its index. -/
theorem romFwd_of_mem_romRevTable : ∀ e ∈ romRevTable, romFwd (e.2.setWidth 5) = e.1 :=
  List.forall_iff_forall_mem.1 (by decide)

/-- Everything ROM_REV can hold: the symbol of a valid entry, or the sentinel (R52). -/
theorem romRev_cases (c : Byte) :
    (∃ e ∈ romRevTable, e.1 = c ∧ romRev c = e.2) ∨ romRev c = invalidSentinel := by
  cases h : romRevTable.find? (fun e => e.1 == c) with
  | some e =>
    have hkey : (e.1 == c) = true := List.find?_some (p := fun e : Byte × Byte => e.1 == c) h
    exact .inl ⟨e, List.mem_of_find?_eq_some h, eq_of_beq hkey, by rw [romRev, h]⟩
  | none => exact .inr (by rw [romRev, h])

theorem romFwd_romRev {c : Byte} (hc : romRev c ≠ invalidSentinel) : romFwd ((romRev c).setWidth 5) = c := by
  obtain ⟨e, hmem, rfl, hval⟩ | hsent := romRev_cases c
  · rw [hval]
    exact romFwd_of_mem_romRevTable e hmem
  · exact absurd hsent hc

/-- A byte that is no character of the alphabet has the sentinel: a valid entry would give its symbol. -/
theorem romRev_eq_sentinel {c : Byte} (hc : ∀ v : Sym, romFwd v ≠ c) : romRev c = invalidSentinel := by
  by_contra hvalid
  exact hc _ (romFwd_romRev hvalid)

/-! ### The commands -/

variable {s : State}

theorem exec_csFwd_of_fits (he : s.errl = false) (hfit : s.Fits 1) (v : Sym) :
    exec (.csFwd v) s = .next (s.pushAll [(romFwd v).setWidth 32]).retire := by
  rw [exec, execCsFwd, State.unlessLatched_clear he]
  exact State.commit_of_fits hfit id

theorem exec_csRev_of_fits (he : s.errl = false) (hfit : s.Fits 1) (b : Byte) :
    exec (.csRev b) s = .next (s.pushAll [(romRev b).setWidth 32]).retire := by
  rw [exec, execCsRev, State.unlessLatched_clear he]
  exact State.commit_of_fits hfit id

end Sys2Proof.Machine
end

section
namespace Sys2Proof

open Sys2Proof.Machine

/-- Settles O36: CS_FWD's one push, with ROM_FWD read as the alphabet. -/
theorem csFwdPushesTheCharacter : Obligations.CsFwdPushesTheCharacter := by
  intro s v he hfit
  rw [← romFwd_setWidth_eq]
  exact exec_csFwd_of_fits he (.inr hfit) v

/-- Settles O37: CS_REV's one push, with ROM_REV read as the inverse of ROM_FWD or as the sentinel. -/
theorem csRevPushesTheSymbolOrTheSentinel : Obligations.CsRevPushesTheSymbolOrTheSentinel := by
  intro s b he hfit
  have hexec := exec_csRev_of_fits he (.inr hfit) b
  refine ⟨fun v hv => ?_, fun hnone => ?_⟩
  · have hword : (romRev b).setWidth 32 = BitVec.ofNat 32 v.toNat := by
      rw [← hv, romRev_romFwd, BitVec.ofNat_toNat, BitVec.setWidth_setWidth (by decide)]
    rw [hexec, hword]
    rfl
  · rw [hexec, romRev_eq_sentinel hnone]
    rfl

/-- Settles O38: the valid entries of ROM_REV are the characters of ROM_FWD with their indices. -/
theorem romTablesAreInverse : Obligations.RomTablesAreInverse :=
  ⟨romRev_romFwd, fun _ => romFwd_romRev⟩

end Sys2Proof
end

section
/-! The outcomes of the control commands, which the error latch does not drop, and the words of RD (44_control.md). -/

namespace Sys2Proof.Machine

theorem exec_nop (s : State) : exec .nop s = .next s.retire := s.commit_nil id

theorem exec_clrerr (s : State) : exec .clrerr s = .next s.clearError.retire := s.commit_nil _

theorem exec_rd_of_fits {s : State} (hfit : s.Fits 1) (r : RdReg) :
    exec (.rd r) s = .next (s.pushAll [s.readReg r]).retire :=
  State.commit_of_fits hfit id

theorem setWidth_eq_halves : ∀ b : BitVec 8,
    b.setWidth 32 = BitVec.ofNat 32 ((b.extractLsb' 4 4).toNat * 16 + (b.extractLsb' 0 4).toNat) := by decide

/-- Without the reserved bits 3:2, STATUS is its three fields (10_state.md R27). -/
theorem setWidth_unreserved_eq_fields : ∀ st : BitVec 8,
    (st &&& 0xF3).setWidth 32 = BitVec.ofNat 32
      ((st.extractLsb' 4 4).toNat * 16 + (if st.getLsbD 1 then 2 else 0) + (if st.getLsbD 0 then 1 else 0)) := by decide

theorem State.readReg_cfg (s : State) : s.readReg .cfg = BitVec.ofNat 32 (s.toW * 16 + s.fromW) :=
  setWidth_eq_halves s.cfg

theorem State.readReg_status (s : State) : s.readReg .status =
    BitVec.ofNat 32 (s.ecode.toNat * 16 + (if s.errl then 2 else 0) + (if s.vok then 1 else 0)) :=
  setWidth_unreserved_eq_fields s.status

/-- The frame of CLRERR (R194): STATUS, ECMD and the pending commands, and nothing else. -/
theorem State.clearError_retire_frame (s : State) :
    s.clearError.retire = { s with status := s.clearError.status, ecmd := 0, cmds := s.cmds.tail } := rfl

/-- SRST differs from a reset only in the later written commands (70_reset_and_hazards.md R292). -/
theorem State.clearEngine_retire_eq_hostReset (s : State) :
    s.clearEngine.retire = { s.hostReset with cmds := s.cmds.tail } := rfl

end Sys2Proof.Machine
end

section
namespace Sys2Proof

open Sys2Proof.Machine

/-- Settles O40: RD's one push, whose word is CFG's two widths, the three fields of STATUS, or another register as it is. -/
theorem rdPushesTheRegister : Obligations.RdPushesTheRegister := by
  intro s r hroom
  rw [exec_rd_of_fits (.inr hroom)]
  cases r with
  | cfg => rw [s.readReg_cfg]; rfl
  | status => rw [s.readReg_status]; rfl
  | chk | acc | cnt | ecmd => simp only [BitVec.ofNat_toNat]; rfl

/-- Settles O39: NOP writes and pushes nothing, so it only leaves the pending commands. -/
theorem nopHasNoEffect : Obligations.NopHasNoEffect := exec_nop

/-- Settles O41: CLRERR's change of STATUS, field by field, and its frame. -/
theorem clrerrClearsTheLatch : Obligations.ClrerrClearsTheLatch := by
  intro s
  obtain ⟨herrl, hecode, hvok, hres⟩ := s.clearError_flags
  exact ⟨_, exec_clrerr s, herrl, hecode, hvok, hres, s.clearError_retire_frame⟩

/-- Settles O42: SRST writes the register values of a reset, which are those of R33. -/
theorem srstResetsTheEngine : Obligations.SrstResetsTheEngine := by
  intro s
  exact ⟨exec_srst s, (exec_srst s).trans (congrArg _ s.clearEngine_retire_eq_hostReset)⟩

end Sys2Proof
end

section
/-! A host call as a program over the engine's state: what a part of it answers and in which state it leaves the engine, part by part
(48_host_codec.md R211, R214, R215; 70_reset_and_hazards.md R298). -/

namespace Sys2Proof.Machine

/-- What every part of a host call starts from: the clean state (R215), with the BCU's registers in range (10_state.md R24, R26). -/
abbrev State.CallReady (s : State) : Prop := s.Clean ∧ s.BcuInRange

/-- From every state of `P` the call `m` ends with a result in `Q`, with the engine ready for the next part, or with an error in `E`,
with the engine quiescent. It never ends with a fault. -/
def HostCall.Meets {α : Type} (P : State → Prop) (m : HostCall α) (Q : α → Prop) (E : HostError → Prop) : Prop :=
  ∀ s, P s → (∃ a t, m s = (.ok a, t) ∧ Q a ∧ t.CallReady) ∨ (∃ e t, m s = (.error e, t) ∧ E e ∧ t.Quiescent)

namespace HostCall.Meets

variable {α β : Type} {P : State → Prop} {m : HostCall α} {Q Q' : α → Prop} {E E' : HostError → Prop}

theorem mono (h : Meets P m Q E) (hQ : ∀ a, Q a → Q' a) (hE : ∀ e, E e → E' e) : Meets P m Q' E' := by
  intro s hs
  obtain ⟨a, t, hm, ha, ht⟩ | ⟨e, t, hm, he, ht⟩ := h s hs
  · exact .inl ⟨a, t, hm, hQ a ha, ht⟩
  · exact .inr ⟨e, t, hm, hE e he, ht⟩

theorem andThen {k : α → HostCall β} {R : β → Prop} (h : Meets P m Q E)
    (hk : ∀ a, Q a → Meets State.CallReady (k a) R E) : Meets P (m.andThen k) R E := by
  intro s hs
  obtain ⟨a, t, hm, ha, ht⟩ | ⟨e, t, hm, he, ht⟩ := h s hs
  · rw [HostCall.andThen_of_ok hm]
    exact hk a ha t ht
  · exact .inr ⟨e, t, HostCall.andThen_of_error hm, he, ht⟩

/-- `andThen` after a part whose result is known. -/
theorem andThen_eq {a : α} {k : α → HostCall β} {R : β → Prop} (h : Meets P m (· = a) E)
    (hk : Meets State.CallReady (k a) R E) : Meets P (m.andThen k) R E :=
  h.andThen fun _ ha => ha ▸ hk

/-- A call that always gives the same answer, with that answer as its specification. -/
theorem of_answer (h : Meets P m Q E) {r : CallResult α} (hr : ∀ s, P s → (m s).1 = r) :
    Meets P m (fun a => r = .ok a) (fun e => r = .error e) := by
  intro s hs
  have hr := hr s hs
  obtain ⟨a, t, hm, -, ht⟩ | ⟨e, t, hm, -, ht⟩ := h s hs <;> rw [hm] at hr
  · exact .inl ⟨a, t, hm, hr.symm, ht⟩
  · exact .inr ⟨e, t, hm, hr.symm, ht⟩

theorem of_ok_answer (h : Meets P m Q E) {a : α} (hr : ∀ s, P s → (m s).1 = .ok a) : Meets P m (· = a) E' :=
  (h.of_answer hr).mono (fun _ h => (CallResult.ok.inj h).symm) fun _ h => by cases h

/-- Every call ends with the engine quiescent (R298). -/
theorem quiescent (h : Meets P m Q E) {s : State} (hs : P s) : (m s).2.Quiescent := by
  obtain ⟨a, t, hm, -, ⟨-, -, hc, hd⟩, -⟩ | ⟨e, t, hm, -, ht⟩ := h s hs <;> rw [hm]
  · exact ⟨hc, hd⟩
  · exact ht

theorem ne_fault (h : Meets P m Q E) {s : State} (hs : P s) (f : Fault) : (m s).1 ≠ .fault f := by
  obtain ⟨a, t, hm, -⟩ | ⟨e, t, hm, -⟩ := h s hs <;> rw [hm] <;> simp

theorem ne_error (h : Meets P m Q E) {s : State} (hs : P s) {e : HostError} (he : ¬ E e) : (m s).1 ≠ .error e := by
  obtain ⟨a, t, hm, -⟩ | ⟨e', t, hm, he', -⟩ := h s hs <;> rw [hm]
  · simp
  · rintro ⟨⟩
    exact he he'

/-- A call whose specification leaves it no error gives its result. -/
theorem eq_ok {a : α} (h : Meets P m (· = a) fun _ => False) {s : State} (hs : P s) : ∃ t, m s = (.ok a, t) := by
  obtain ⟨_, t, hm, rfl, -⟩ | ⟨_, _, -, hfalse, -⟩ := h s hs
  · exact ⟨t, hm⟩
  · exact hfalse.elim

end HostCall.Meets

open HostCall (Meets)

variable {α : Type} {Q : α → Prop} {E : HostError → Prop}

/-! ### The host's own parts -/

theorem meets_pure {a : α} (ha : Q a) : Meets State.CallReady (HostCall.pure a) Q E :=
  fun s hs => .inl ⟨a, s, rfl, ha, hs⟩

theorem meets_ofExcept {r : Except HostError α} (hok : ∀ a, r = .ok a → Q a) (herror : ∀ e, r = .error e → E e) :
    Meets State.CallReady (HostCall.ofExcept r) Q E := by
  intro s hs
  obtain ⟨-, -, hc, hd⟩ := hs.1
  cases r with
  | ok a => exact .inl ⟨a, s, rfl, hok a rfl, hs⟩
  | error e => exact .inr ⟨e, s, rfl, herror e rfl, hc, hd⟩

/-- A check that passes. -/
theorem meets_ofExcept_ok {r : Except HostError α} {a : α} (h : r = .ok a) :
    Meets State.CallReady (HostCall.ofExcept r) (· = a) E := by
  subst h
  exact meets_pure rfl

/-- A check that does not fail with the error `e`. -/
theorem meets_ofExcept_ne {r : Except HostError α} {e : HostError} (h : r ≠ .error e) :
    Meets State.CallReady (HostCall.ofExcept r) (fun a => r = .ok a) (· ≠ e) :=
  meets_ofExcept (fun _ h => h) fun _ he heq => h (heq ▸ he)

/-! ### The engine's parts -/

/-- SRST makes a quiescent engine ready for the rest of the call, whatever is in its registers (R196, R215). -/
theorem meets_startCall : Meets State.Quiescent startCall (· = ()) E := by
  rintro s ⟨hc, hd⟩
  have hclear : State.reset.errl = false := by decide
  have hrange : State.reset.BcuInRange := by decide
  have hissue := issue_of_exec (i := .srst) (decode_encode rfl) hc (exec_srst _) hclear
  exact .inl ⟨(), _, HostCall.andThen_of_ok hissue, rfl, ⟨hclear, rfl, rfl, hd⟩, hrange⟩

theorem Writes.errl_clear {s u : State} {i : Instr} (h : Writes s i u) (hs : s.errl = false) : u.errl = false := by
  cases h with
  | pmVfy => exact (s.withVok_flags _).1.trans hs
  | clrerr => exact s.clearError_flags.1
  | srst => exact (by decide : State.reset.errl = false)
  | _ => exact hs

theorem State.verdict_of_clear {s : State} (h : s.errl = false) (ws : List RspWord) : s.verdict ws = .ok ws :=
  if_neg (Bool.eq_false_iff.1 h)

/-- A command whose word decodes raises no ILLEGAL_CMD (R76, R262): with the latch clear, the host sees no error or one of two. -/
theorem Effect.verdict_cases {s t : State} {i : Instr} (h : Effect s i t) (hi : i.wellFormed = true) (hs : s.errl = false) :
    t.errl = false ∨ ∃ e : HostError, ∀ ws, t.verdict ws = .error e := by
  cases h with
  | wait => exact .inl hs
  | drop he => simp [hs] at he
  | run ws u _ hw => exact .inl (hw.errl_clear hs)
  | raise e _ hrec =>
    obtain ⟨herrl, hcode, -⟩ := s.raise_flags e (encode i)
    have hverdict := State.verdict_of_flags herrl hcode
    cases e with
    | illegalCmd => simp [errorRecord, EngineError.code, decode_encode hi, Decoded.instr?] at hrec
    | invalidValue => exact .inr ⟨_, hverdict⟩
    | invalidPadding => exact .inr ⟨_, hverdict⟩

/-- From a ready engine a command has room, so it is done with when the host has popped its words. -/
theorem meets_issue {i : Instr} (hi : i.wellFormed = true) :
    Meets State.CallReady (issue (encode i)) (fun _ => True) fun _ => True := by
  rintro s ⟨hclean, hr⟩
  obtain ⟨he, -, hc, hd⟩ := id hclean
  have hfit := hclean.fits (pushCountIsAtMostEight.1 s (encode i) hr).1
  obtain ⟨-, hrun⟩ := commandRunsExactlyWhenItsWordsFit { s with cmds := [encode i] } i hi hr
  obtain ⟨t, ht, htc, -⟩ := hrun hfit
  have heffect := exec_effect ht
  have hdepth : Config.rspDepthMin ≤ t.rspDepth := hd.trans_eq heffect.modelFields.1.symm
  have hrange : t.BcuInRange := heffect.keeps (fun _ _ _ h => h) (fun _ _ _ _ _ h => h) (fun _ _ _ _ hw _ h => hw.bcuInRange h) hr
  have hturn : engineTurn (s.hostWrite (encode i)) = .next t := by
    rw [State.hostWrite, hc, List.nil_append, engineTurn_of_cons rfl, runWord_of_command (decode_encode hi), ht]
  obtain hclear | ⟨e, herror⟩ := heffect.verdict_cases hi he
  · have hok := State.verdict_of_clear (s := { t with rspq := [], popped := t.popped ++ t.rspq }) hclear t.rspq
    exact .inl ⟨_, _, (issue_of_next hturn).trans (congrArg (·, _) hok), trivial, ⟨hclear, rfl, htc, hdepth⟩, hrange⟩
  · exact .inr ⟨e, _, (issue_of_next hturn).trans (congrArg (·, _) (herror _)), trivial, htc, hdepth⟩

theorem meets_issueAll {is : List Instr} (his : ∀ i ∈ is, i.wellFormed = true) :
    Meets State.CallReady (issueAll is) (fun _ => True) fun _ => True := by
  induction is with
  | nil => exact meets_pure trivial
  | cons i is ih =>
    obtain ⟨hi, his⟩ := List.forall_mem_cons.1 his
    exact (meets_issue hi).andThen fun _ _ => (ih his).andThen fun _ _ => meets_pure trivial

/-- A part whose words are known to come out of every clean engine. -/
theorem meets_issueAll_ok {is : List Instr} {ws : List RspWord} (his : ∀ i ∈ is, i.wellFormed = true)
    (h : ∀ s : State, s.Clean → (issueAll is s).1 = .ok ws) : Meets State.CallReady (issueAll is) (· = ws) E :=
  (meets_issueAll his).of_ok_answer fun s hs => h s hs.1

end Sys2Proof.Machine
end

section
/-! The checks of the host's own in the two procedures, and the errors that none of them is (48_host_codec.md R212, R230 to R238). -/

namespace Sys2Proof.Machine

/-! ### The scan of a text (R231 to R233) -/

/-- A byte that the scan takes as it is: printable (R231) and no uppercase letter (R232). -/
def Plain (b : Byte) : Prop := 33 ≤ b.toNat ∧ b.toNat ≤ 126 ∧ ¬ (0x41 ≤ b.toNat ∧ b.toNat ≤ 0x5A)

theorem isUpper_eq_false {b : Byte} (h : ¬ (0x41 ≤ b.toNat ∧ b.toNat ≤ 0x5A)) : isUpper b = false := by
  simpa [isUpper] using h

theorem foldCase_of_not_upper {b : Byte} (h : ¬ (0x41 ≤ b.toNat ∧ b.toNat ≤ 0x5A)) : foldCase b = b := by
  rw [foldCase, isUpper_eq_false h, if_neg Bool.false_ne_true]

theorem plain_separator : Plain separator := by unfold Plain; decide

/-- The alphabet has lowercase letters and digits, and no `'1'` (R51). -/
theorem romFwd_plain : ∀ v : Sym, Plain (romFwd v) ∧ romFwd v ≠ separator := by unfold Plain; decide

variable {i : Nat} {low : Bool} {sep : Option Nat}

theorem scanText_cons_plain {b : Byte} (hb : Plain b) {bs cs : List Byte} {last : Option Nat}
    (h : scanText (i + 1) false (low || isLower b) (if b = separator then some i else sep) bs = .ok (cs, last)) :
    scanText i false low sep (b :: bs) = .ok (b :: cs, last) := by
  obtain ⟨hmin, hmax, hupper⟩ := hb
  have hrange : ¬ (b.toNat < 33 ∨ 126 < b.toNat) := by omega
  simp [scanText, hrange, isUpper_eq_false hupper, foldCase_of_not_upper hupper, h]

theorem scanText_without_separator {bs : List Byte} (hbs : ∀ b ∈ bs, Plain b ∧ b ≠ separator) :
    scanText i false low sep bs = .ok (bs, sep) := by
  induction bs generalizing i low with
  | nil => rfl
  | cons b bs ih =>
    obtain ⟨⟨hb, hne⟩, hbs⟩ := List.forall_mem_cons.1 hbs
    refine scanText_cons_plain hb ?_
    rw [if_neg hne]
    exact ih hbs

/-- The last `'1'` splits a plain text, whatever `'1'`s stand before it (R233). -/
theorem scanText_with_separator {hrp bs : List Byte} (hhrp : ∀ b ∈ hrp, Plain b) (hbs : ∀ b ∈ bs, Plain b ∧ b ≠ separator) :
    scanText i false low sep (hrp ++ separator :: bs) = .ok (hrp ++ separator :: bs, some (i + hrp.length)) := by
  induction hrp generalizing i low sep with
  | nil =>
    refine scanText_cons_plain plain_separator ?_
    rw [if_pos rfl]
    exact scanText_without_separator hbs
  | cons b hrp ih =>
    obtain ⟨hb, hhrp⟩ := List.forall_mem_cons.1 hhrp
    rw [List.cons_append, List.length_cons, Nat.add_comm hrp.length, ← Nat.add_assoc]
    exact scanText_cons_plain hb (ih hhrp)

/-- A plain text of a legal length splits at its last `'1'` into a nonempty HRP and at least six data bytes (R230, R233, R234). -/
theorem splitText_of_plain {hrp bs : List Byte} (hhrp : ∀ b ∈ hrp, Plain b) (hbs : ∀ b ∈ bs, Plain b ∧ b ≠ separator)
    (hpos : 1 ≤ hrp.length) (hsix : 6 ≤ bs.length) (hmax : hrp.length + 1 + bs.length ≤ maxLen) :
    splitText (hrp ++ separator :: bs) = .ok (hrp, bs) := by
  have hlen : (hrp ++ separator :: bs).length = hrp.length + 1 + bs.length := by simp; omega
  rw [splitText, hlen, if_neg (by omega), if_neg (by omega), scanText_with_separator hhrp hbs]
  simp only [Nat.zero_add, hlen]
  rw [if_neg (by omega), if_neg (by omega)]
  simp [List.drop_append]

/-! ### Uppercased texts (R231, R232) -/

/-- A lowercase letter uppercased, every other byte unchanged. -/
def upcase (b : Byte) : Byte := if 0x61 ≤ b.toNat ∧ b.toNat ≤ 0x7A then b - 0x20 else b

/-- Folding undoes uppercasing, which makes uppercase letters of the lowercase ones and keeps the printable bytes printable. -/
theorem upcase_facts : ∀ b : Byte, ¬ (0x41 ≤ b.toNat ∧ b.toNat ≤ 0x5A) →
    foldCase (upcase b) = b ∧ isUpper (upcase b) = isLower b ∧ isLower (upcase b) = false ∧
      ((upcase b).toNat < 33 ∨ 126 < (upcase b).toNat ↔ b.toNat < 33 ∨ 126 < b.toNat) := by decide

/-- The scan of the uppercased text has seen the uppercase letters where that of the text has seen the lowercase ones. -/
theorem scanText_upcase {text : List Byte} (h : ∀ b ∈ text, ¬ (0x41 ≤ b.toNat ∧ b.toNat ≤ 0x5A)) (seen : Bool) :
    scanText i seen false sep (text.map upcase) = scanText i false seen sep text := by
  induction text generalizing i seen sep with
  | nil => rfl
  | cons b bs ih =>
    obtain ⟨hb, hbs⟩ := List.forall_mem_cons.1 h
    obtain ⟨hfold, hup, hlow, hrange⟩ := upcase_facts b hb
    simp only [List.map_cons, scanText, hfold, hup, hlow, hrange, isUpper_eq_false hb, foldCase_of_not_upper hb, Bool.or_false,
      Bool.and_false, Bool.false_and, ih hbs]

theorem splitText_upcase {text : List Byte} (h : ∀ b ∈ text, ¬ (0x41 ≤ b.toNat ∧ b.toNat ≤ 0x5A)) :
    splitText (text.map upcase) = splitText text := by
  rw [splitText, splitText, List.length_map, scanText_upcase h]

/-! ### No check of the host's own fails with an error of the engine's converter (R210, R214) -/

theorem scanText_ne_invalidValue (text : List Byte) (seenUpper seenLower : Bool) :
    scanText i seenUpper seenLower sep text ≠ .error .invalidValueForConvertBits := by
  induction text generalizing i seenUpper seenLower sep with
  | nil => simp [scanText]
  | cons b bs ih =>
    rw [scanText]
    split
    · simp
    · dsimp only
      split
      · simp
      · split
        · simp
        · rename_i e he
          rintro ⟨⟩
          exact ih _ _ he

theorem splitText_ne_invalidValue (text : List Byte) : splitText text ≠ .error .invalidValueForConvertBits := by
  rw [splitText]
  split_ifs
  · simp
  · simp
  · split
    · rename_i e he
      rintro ⟨⟩
      exact scanText_ne_invalidValue _ _ _ he
    · simp
    · split_ifs <;> simp

theorem rejectSentinel_ne_invalidValue (ws : List RspWord) : rejectSentinel ws ≠ .error .invalidValueForConvertBits := by
  rw [rejectSentinel]; split <;> simp

theorem checkVerified_ne_invalidValue (ws : List RspWord) : checkVerified ws ≠ .error .invalidValueForConvertBits := by
  rw [checkVerified]; split <;> simp

theorem payloadOf_ne_invalidValue (expected hrp : List Byte) (data : List Sym) :
    payloadOf expected hrp data ≠ .error .invalidValueForConvertBits := by
  rw [payloadOf]
  split
  · simp
  · split
    · simp
    · split <;> simp

theorem validate_ne_invalidValue (version : Nat) (program : List Byte) :
    validate version program ≠ .error .invalidValueForConvertBits := by
  rw [validate]; split_ifs <;> simp

end Sys2Proof.Machine
end

section
/-! The engine's parts of the two procedures, each with its answer (48_host_codec.md R220, R235, R236, R239). -/

namespace Sys2Proof.Machine

open HostCall (Meets)

variable {E : HostError → Prop}

/-! ### The character set -/

/-- The command `i` does nothing but push the word `w`. -/
def Pushes (i : Instr) (w : RspWord) : Prop :=
  i.wellFormed = true ∧ ∀ s : State, s.errl = false → s.Fits 1 → exec i s = .next (s.pushAll [w]).retire

theorem pushes_csFwd (v : Sym) : Pushes (.csFwd v) ((romFwd v).setWidth 32) :=
  ⟨rfl, fun _ he hfit => exec_csFwd_of_fits he hfit v⟩

theorem pushes_csRev (b : Byte) : Pushes (.csRev b) ((romRev b).setWidth 32) :=
  ⟨rfl, fun _ he hfit => exec_csRev_of_fits he hfit b⟩

theorem issue_of_pushes {s : State} (hs : s.Clean) {i : Instr} {w : RspWord} (h : Pushes i w) :
    (issue (encode i) s).1 = .ok [w] := by
  have hfit := hs.fits (k := 1) (by decide)
  obtain ⟨he, hq, hc, -⟩ := hs
  obtain ⟨hi, hexec⟩ := h
  rw [issue_of_completion (decode_encode hi) hc (hexec { s with cmds := [encode i] } he hfit) hq he]

theorem meets_issueAll_map {α : Type} {i : α → Instr} {w : α → RspWord} (h : ∀ a, Pushes (i a) (w a)) (as : List α) :
    Meets State.CallReady (issueAll (as.map i)) (· = as.map w) E := by
  induction as with
  | nil => exact meets_pure rfl
  | cons a as ih =>
    have hissue : Meets State.CallReady (issue (encode (i a))) (· = [w a]) E :=
      (meets_issue (h a).1).of_ok_answer fun s hs => issue_of_pushes hs.1 (h a)
    exact hissue.andThen_eq (ih.andThen_eq (meets_pure rfl))

theorem map_byteOf_characters (d : List Sym) : (d.map fun v => ((romFwd v).setWidth 32 : RspWord)).map byteOf = d.map romFwd := by
  simp [Function.comp_def, byteOf]

theorem map_symOf_setWidth (vs : List Sym) : (vs.map fun v => (v.setWidth 32 : RspWord)).map symOf = vs :=
  low_symbols_of_words vs

theorem romRev_word : ∀ v : Sym, byteOf ((romRev (romFwd v)).setWidth 32) ≠ 0xFF ∧ symOf ((romRev (romFwd v)).setWidth 32) = v := by
  decide

/-- The characters of symbols are read back as these symbols, and none is out of range (R235). -/
theorem rejectSentinel_of_symbols (d : List Sym) :
    rejectSentinel ((d.map romFwd).map fun b => (romRev b).setWidth 32) = .ok d := by
  have hvalid : ∀ v ∈ d, byteOf ((romRev (romFwd v)).setWidth 32) ≠ 0xFF := fun v _ => (romRev_word v).1
  simpa [rejectSentinel, Function.comp_def, romRev_word] using hvalid

/-! ### The checksum -/

theorem polyModCommands_wellFormed (hrp : List Byte) (d : List Sym) {last : Instr} (hlast : last.wellFormed = true) :
    ∀ i ∈ [.pmInit] ++ pmHrp hrp ++ d.map .pmSym ++ [last], i.wellFormed = true := by
  simp only [List.forall_mem_append, List.forall_mem_singleton]
  exact ⟨⟨⟨rfl, fun _ => pmHrp_wellFormed⟩, List.forall_mem_map.2 fun _ _ => rfl⟩, hlast⟩

theorem meets_checksumCommands (hrp : List Byte) (d : List Sym) : Meets State.CallReady (issueAll (checksumCommands hrp d))
    (· = (createChecksum hrp d).map fun v => v.setWidth 32) E :=
  meets_issueAll_ok (polyModCommands_wellFormed hrp d rfl) fun s hs => engineCreatesTheChecksum s hrp d hs

theorem meets_verifyCommands (hrp : List Byte) (d : List Sym) : Meets State.CallReady (issueAll (verifyCommands hrp d))
    (· = [if verifyChecksum hrp d then 1 else 0]) E :=
  meets_issueAll_ok (polyModCommands_wellFormed hrp d rfl) fun s hs => engineVerifiesTheChecksum s hrp d hs

theorem createChecksum_length (hrp : List Byte) (d : List Sym) : (createChecksum hrp d).length = 6 :=
  checksumSymbols_length _

/-- R148, on D0's functions: data with its checksum verifies. -/
theorem verifyChecksum_createChecksum (hrp : List Byte) (d : List Sym) :
    verifyChecksum hrp (d ++ createChecksum hrp d) = true := by
  have hfeed : polyMod (hrpExpand hrp ++ (d ++ createChecksum hrp d)) = targetM := by
    rw [createChecksum_eq, ← List.append_assoc, polyMod, polyFeed_append]
    exact polyFeed_checksumSymbols_finalChecksum _
  exact beq_iff_eq.2 hfeed

/-! ### The two conversions -/

theorem meets_convertCommands {f t : BitVec 4} (hw : (Instr.cvCfg f t).wellFormed = true) (data : List Byte) (pad : Bool) :
    Meets State.CallReady (issueAll (convertCommands f t data pad))
      (fun ws => conversionAnswer (convert (data.map fun v => v.toNat) f.toNat t.toNat pad) = .ok ws)
      (fun e => conversionAnswer (convert (data.map fun v => v.toNat) f.toNat t.toNat pad) = .error e) := by
  have hwf : ∀ i ∈ convertCommands f t data pad, i.wellFormed = true := by
    simp only [convertCommands, List.forall_mem_append, List.forall_mem_singleton]
    exact ⟨⟨hw, List.forall_mem_map.2 fun _ _ => rfl⟩, rfl⟩
  exact (meets_issueAll hwf).of_answer fun s hs => issueAll_convertCommands hs.1 hw data pad

theorem meets_convertCommands_ok {f t : BitVec 4} (hw : (Instr.cvCfg f t).wellFormed = true) {data : List Byte} {pad : Bool}
    {ws : List Nat} (h : convert (data.map fun v => v.toNat) f.toNat t.toNat pad = .ok ws) :
    Meets State.CallReady (issueAll (convertCommands f t data pad)) (· = ws.map fun x => BitVec.ofNat 32 x) E := by
  have hmeets := meets_convertCommands hw data pad
  rw [h] at hmeets
  exact hmeets.mono (fun _ h => (CallResult.ok.inj h).symm) fun _ h => by cases h

theorem bytes_lt (program : List Byte) : ∀ v ∈ program.map fun b => b.toNat, v < 2 ^ 8 :=
  List.forall_mem_map.2 fun b _ => b.isLt

theorem map_byteOf_ofNat_toNat (program : List Byte) :
    ((program.map fun b => b.toNat).map fun x => BitVec.ofNat 32 x).map byteOf = program := by
  simp [Function.comp_def, byteOf]

theorem map_toNat_setWidth (vs : List Sym) :
    (vs.map fun v => (v.setWidth 8 : Byte)).map (fun b => b.toNat) = vs.map fun v => v.toNat := by
  rw [List.map_map]
  exact List.map_congr_left fun v _ => BitVec.toNat_setWidth_of_le (by decide)

/-- Values of FROM bits are not too wide (R102). -/
theorem convert_ne_invalidValue {f t : Nat} (ht : 1 ≤ t) {data : List Nat} (hdata : ∀ v ∈ data, v < 2 ^ f) (pad : Bool) :
    convert data f t pad ≠ .error .invalidValue := by
  obtain ⟨ws, acc, cnt, -, -, -, hconv⟩ := convertFrom_bits ht data hdata 0 0 ht
  rw [convert, hconv, convertEnd]
  split_ifs <;> simp [Except.map]

theorem conversionAnswer_ne_invalidValue {r : Except EngineError (List Nat)} (h : r ≠ .error .invalidValue) :
    conversionAnswer r ≠ .error .invalidValueForConvertBits := by
  cases r with
  | ok ws => simp [conversionAnswer]
  | error e => cases e <;> simp_all [conversionAnswer, EngineError.answer]

/-- Bytes become symbols, and these become the same bytes again (R243): the bits are the same, but for a filling of fewer than 5 zeros. -/
theorem convert_roundTrip {data : List Nat} (hdata : ∀ v ∈ data, v < 2 ^ 8) :
    ∃ ws, convert data 8 5 true = .ok ws ∧ ws.length = (8 * data.length + 4) / 5 ∧ (∀ w ∈ ws, w < 2 ^ 5) ∧
      convert ws 5 8 false = .ok data := by
  obtain ⟨⟨ws, n, hok, hn, hws, hbits⟩, -⟩ :=
    (convertRegroupsBitsMsbFirst 8 5 data (by decide) (by decide) (by decide) (by decide)).1 hdata
  obtain ⟨-, hback⟩ := (convertRegroupsBitsMsbFirst 5 8 ws (by decide) (by decide) (by decide) (by decide)).1 hws
  obtain ⟨ws', hok', hlen⟩ := conversionCounts.1 data hdata
  obtain rfl := Except.ok.inj (hok.symm.trans hok')
  exact ⟨ws, hok, hlen, hws, (hback data).2 ⟨hdata, n, by omega, hn, hbits⟩⟩

end Sys2Proof.Machine
end

section
/-! The two procedures as a whole (48_host_codec.md R220, R230 to R241). -/

namespace Sys2Proof.Machine

open HostCall (Meets)

variable {E : HostError → Prop}

/-- `validate`, check by check (R212). -/
theorem validate_of_version_gt {version : Nat} (h : 16 < version) (program : List Byte) :
    validate version program = .error .invalidWitnessVersion :=
  if_pos (not_le.2 h)

theorem validate_of_version_le {version : Nat} (h : version ≤ 16) (program : List Byte) :
    validate version program =
      if 2 ≤ program.length ∧ program.length ≤ 40 ∧ (version = 0 → program.length = 20 ∨ program.length = 32) then .ok ()
      else .error .invalidProgramSize := by
  rw [validate, if_neg (not_not.2 h)]
  by_cases hsize : 2 ≤ program.length ∧ program.length ≤ 40 ∧ (version = 0 → program.length = 20 ∨ program.length = 32)
  · rw [if_pos hsize, if_neg (by omega), if_neg (by omega)]
  · rw [if_neg hsize]
    by_cases hlen : program.length < 2 ∨ 40 < program.length
    · rw [if_pos hlen]
    · rw [if_neg hlen, if_pos (by omega)]

theorem bounds_of_validate {version : Nat} {program : List Byte} (h : validate version program = .ok ()) :
    version ≤ 16 ∧ program.length ≤ 40 := by
  by_cases hv : version ≤ 16
  · rw [validate_of_version_le hv] at h
    split at h
    · rename_i hsize
      exact ⟨hv, hsize.2.1⟩
    · cases h
  · rw [validate_of_version_gt (not_le.1 hv)] at h
    cases h

/-- The string of the symbols `d`: the HRP, the separator, and the characters of the symbols and of their checksum (R220). -/
def segwitString (hrp : List Byte) (d : List Sym) : List Byte := hrp ++ [separator] ++ (d ++ createChecksum hrp d).map romFwd

/-- encode_segwit gives the string of the version and the converted program, unless `validate` fails. -/
theorem meets_encodeSegwit (hrp : List Byte) (version : Nat) {program : List Byte} {ws : List Nat}
    (hws : convert (program.map fun b => b.toNat) 8 5 true = .ok ws) (hE : ∀ e, validate version program = .error e → E e) :
    Meets State.Quiescent (encodeSegwit hrp version program)
      (· = segwitString hrp (BitVec.ofNat 5 version :: ws.map (BitVec.ofNat 5))) E := by
  have hsymbols : (ws.map fun x => BitVec.ofNat 32 x).map symOf = ws.map (BitVec.ofNat 5) := by
    simp [symOf]
  refine meets_startCall.andThen_eq ((meets_ofExcept (fun _ h => h) hE).andThen fun _ _ => ?_)
  refine (meets_convertCommands_ok rfl hws).andThen_eq ?_
  rw [hsymbols]
  refine (meets_checksumCommands hrp _).andThen_eq ?_
  rw [map_symOf_setWidth]
  refine (meets_issueAll_map pushes_csFwd _).andThen_eq (meets_pure ?_)
  rw [segwitString, map_byteOf_characters]

theorem encodeSegwit_of_valid {s : State} (hs : s.Quiescent) {version : Nat} {program : List Byte}
    (hvalid : validate version program = .ok ()) {ws : List Nat}
    (hws : convert (program.map fun b => b.toNat) 8 5 true = .ok ws) (hrp : List Byte) :
    ∃ t, encodeSegwit hrp version program s =
      (.ok (segwitString hrp (BitVec.ofNat 5 version :: ws.map (BitVec.ofNat 5))), t) :=
  (meets_encodeSegwit hrp version hws (by simp [hvalid])).eq_ok hs

/-- A string of R220 of a legal length splits where encode_segwit joined it: no character of a symbol is a `'1'` (R233). -/
theorem splitText_segwitString {hrp : List Byte} (hhrp : ∀ b ∈ hrp, Plain b) (hpos : 1 ≤ hrp.length) {d : List Sym}
    (hmax : hrp.length + 1 + d.length + 6 ≤ maxLen) :
    splitText (segwitString hrp d) = .ok (hrp, (d ++ createChecksum hrp d).map romFwd) := by
  have hlen : ((d ++ createChecksum hrp d).map romFwd).length = d.length + 6 := by
    rw [List.length_map, List.length_append, createChecksum_length]
  rw [segwitString, List.append_assoc, List.singleton_append]
  exact splitText_of_plain hhrp (List.forall_mem_map.2 fun v _ => romFwd_plain v) hpos (by omega) (by omega)

/-- decode_segwit ends with the first check of the text that fails. -/
theorem decodeSegwit_of_splitText_error {text : List Byte} {e : HostError} (h : splitText text = .error e) {s : State}
    (hs : s.Quiescent) (expected : List Byte) : (decodeSegwit expected text s).1 = .error e := by
  obtain ⟨t, ht⟩ := meets_startCall.eq_ok hs
  rw [decodeSegwit, HostCall.andThen_of_ok ht, h, HostCall.andThen_of_error (HostCall.ofExcept_error e t)]

/-- decode_segwit never pushes a value that is too wide: what it converts are symbols (R214). -/
theorem meets_decodeSegwit (expected text : List Byte) :
    Meets State.Quiescent (decodeSegwit expected text) (fun _ => True) (· ≠ .invalidValueForConvertBits) := by
  refine meets_startCall.andThen_eq ?_
  refine (meets_ofExcept_ne (splitText_ne_invalidValue text)).andThen fun ⟨hrp, bytes⟩ _ => ?_
  refine (meets_issueAll_map pushes_csRev bytes).andThen_eq ?_
  refine (meets_ofExcept_ne (rejectSentinel_ne_invalidValue _)).andThen fun data _ => ?_
  refine (meets_verifyCommands hrp data).andThen_eq ?_
  refine (meets_ofExcept_ne (checkVerified_ne_invalidValue _)).andThen fun _ _ => ?_
  refine (meets_ofExcept_ne (payloadOf_ne_invalidValue expected hrp data)).andThen fun ⟨version, rest⟩ _ => ?_
  have hnarrow : ∀ v ∈ (rest.map fun v => (v.setWidth 8 : Byte)).map fun b => b.toNat, v < 2 ^ 5 := by
    rw [map_toNat_setWidth]
    exact List.forall_mem_map.2 fun v _ => v.isLt
  have hconv := conversionAnswer_ne_invalidValue (convert_ne_invalidValue (t := 8) (by decide) hnarrow false)
  have hmeets := (meets_convertCommands (f := 5) (t := 8) rfl (rest.map fun v => v.setWidth 8) false).mono (fun _ h => h)
    fun e he (heq : e = .invalidValueForConvertBits) => hconv (heq ▸ he)
  refine hmeets.andThen fun _ _ => ?_
  exact (meets_ofExcept_ne (validate_ne_invalidValue _ _)).andThen fun _ _ => meets_pure trivial

/-- A checked payload of the expected HRP is split into its version and the rest, the checksum being stripped (R237, R238). -/
theorem payloadOf_of_symbols (hrp : List Byte) (version : Sym) {rest checksum : List Sym} (hsix : checksum.length = 6)
    (hmax : rest.length ≤ 64) : payloadOf hrp hrp (version :: rest ++ checksum) = .ok (version, rest) := by
  have htake : (version :: rest ++ checksum).take ((version :: rest ++ checksum).length - 6) = version :: rest := by
    rw [List.length_append, hsix, Nat.add_sub_cancel, List.take_left]
  rw [payloadOf, if_neg (not_not.2 rfl), htake]
  exact if_neg (by omega)

/-- decode_segwit of a string of R220, under the preconditions of R243: every check passes, and the rest is converted back. -/
theorem meets_decodeSegwit_segwitString {hrp : List Byte} (hhrp : ∀ b ∈ hrp, Plain b) (hpos : 1 ≤ hrp.length) (version : Sym)
    {rest : List Sym} (hrest : rest.length ≤ 64) (hmax : hrp.length + 2 + rest.length + 6 ≤ maxLen) {program : List Byte}
    (hconv : convert (rest.map fun v => v.toNat) 5 8 false = .ok (program.map fun b => b.toNat))
    (hvalid : validate version.toNat program = .ok ()) :
    Meets State.Quiescent (decodeSegwit hrp (segwitString hrp (version :: rest))) (· = (version.toNat, program)) E := by
  set d := version :: rest with hd
  have hsix := createChecksum_length hrp d
  have hsplit := splitText_segwitString hhrp hpos (d := d) (by rw [hd, List.length_cons]; omega)
  have hverified : checkVerified [if verifyChecksum hrp (d ++ createChecksum hrp d) then 1 else 0] = .ok () := by
    rw [verifyChecksum_createChecksum]; rfl
  refine meets_startCall.andThen_eq ((meets_ofExcept_ok hsplit).andThen_eq ?_)
  refine (meets_issueAll_map pushes_csRev _).andThen_eq ((meets_ofExcept_ok (rejectSentinel_of_symbols _)).andThen_eq ?_)
  refine (meets_verifyCommands hrp _).andThen_eq ((meets_ofExcept_ok hverified).andThen_eq ?_)
  refine (meets_ofExcept_ok (payloadOf_of_symbols hrp version hsix hrest)).andThen_eq ?_
  refine (meets_convertCommands_ok rfl (by rw [map_toNat_setWidth]; exact hconv)).andThen_eq ?_
  rw [map_byteOf_ofNat_toNat]
  exact (meets_ofExcept_ok hvalid).andThen_eq (meets_pure rfl)

end Sys2Proof.Machine
end

section
namespace Sys2Proof

open Sys2Proof.Machine

/-- Settles O55: no check fails, so encode_segwit gives its string, whose symbols are the version, the converted program and the
checksum. -/
theorem encodeSucceedsWithTheLength : Obligations.EncodeSucceedsWithTheLength := by
  intro s hrp version program hs hvalid
  obtain ⟨ws, hws, hlen, -⟩ := convert_roundTrip (bytes_lt program)
  rw [List.length_map] at hlen
  obtain ⟨t, ht⟩ := encodeSegwit_of_valid hs hvalid hws hrp
  refine ⟨_, t, ht, ?_, List.forall_mem_map.2 fun v _ => ⟨v, rfl⟩⟩
  simp only [List.length_map, List.length_append, List.length_cons, createChecksum_length, hlen]
  omega

/-- Settles O56: the symbols of the program convert back to its bytes, and the checksum of a string of encode_segwit verifies. -/
theorem decodeOfEncodeRoundTrip : Obligations.DecodeOfEncodeRoundTrip := by
  intro s s' hrp version program hs hs' hvalid hhrp hpos hmax
  obtain ⟨hversion, hsize⟩ := bounds_of_validate hvalid
  obtain ⟨ws, hws, hlen, hnarrow, hback⟩ := convert_roundTrip (bytes_lt program)
  rw [List.length_map] at hlen
  obtain ⟨t, ht⟩ := encodeSegwit_of_valid hs hvalid hws hrp
  have hsym : (BitVec.ofNat 5 version).toNat = version := Nat.mod_eq_of_lt (by omega)
  have hvalues : (ws.map (BitVec.ofNat 5)).map (fun v => v.toNat) = ws := by
    rw [List.map_map]
    exact (List.map_congr_left fun w hw => Nat.mod_eq_of_lt (hnarrow w hw)).trans (List.map_id' ws)
  have hdecode := meets_decodeSegwit_segwitString (E := fun _ => False) hhrp hpos (BitVec.ofNat 5 version)
    (rest := ws.map (BitVec.ofNat 5)) (program := program) (by rw [List.length_map]; omega)
    (by rw [List.length_map, hlen]; exact hmax) (by rw [hvalues]; exact hback) (by rw [hsym]; exact hvalid)
  obtain ⟨t', ht'⟩ := hdecode.eq_ok hs'
  exact ⟨_, congrArg Prod.fst ht, by rw [ht', hsym]⟩

/-- Settles O57: the two texts split alike, and every part of a call leaves the engine quiescent. -/
theorem decodeIgnoresCaseAndCallsEndQuiescent : Obligations.DecodeIgnoresCaseAndCallsEndQuiescent := by
  refine ⟨fun s expected text htext => ?_, fun s hrp text version program hs => ?_⟩
  · change (decodeSegwit expected (text.map upcase) s).1 = _
    rw [decodeSegwit, decodeSegwit, splitText_upcase htext]
  · obtain ⟨ws, hws, -⟩ := convert_roundTrip (bytes_lt program)
    have hencode := meets_encodeSegwit (E := fun _ => True) hrp version hws fun _ _ => trivial
    exact ⟨hencode.quiescent hs, (meets_decodeSegwit hrp text).quiescent hs⟩

/-- Settles O59: neither call ends with a fault, and what is converted is no wider than the width set before. -/
theorem hostCallsRaiseNoInterfaceError : Obligations.HostCallsRaiseNoInterfaceError := by
  intro s hrp text version program hs
  obtain ⟨ws, hws, -⟩ := convert_roundTrip (bytes_lt program)
  have hencode := meets_encodeSegwit (E := (· ≠ .invalidValueForConvertBits)) hrp version hws
    fun e he heq => validate_ne_invalidValue version program (heq ▸ he)
  have hdecode := meets_decodeSegwit hrp text
  exact ⟨hencode.ne_fault hs, hencode.ne_error hs (not_not.2 rfl), hdecode.ne_fault hs, hdecode.ne_error hs (not_not.2 rfl)⟩

/-- Settles O54: the three checks in their order. -/
theorem validateAcceptsWitnessPrograms : Obligations.ValidateAcceptsWitnessPrograms := by
  intro version program
  refine ⟨fun hv => validate_of_version_gt hv program, fun hv hsize => ?_, fun hv hsize => ?_⟩
  · rw [validate_of_version_le hv, if_pos hsize]
  · rw [validate_of_version_le hv, if_neg hsize]

/-- Settles O58: the length is the first check of the text. -/
theorem decodeRejectsByLengthFirst : Obligations.DecodeRejectsByLengthFirst := by
  refine fun s expected text hs => ⟨fun hlong => ?_, fun hshort => ?_⟩
  · exact decodeSegwit_of_splitText_error (if_pos hlong) hs expected
  · have hmax : ¬ maxLen < text.length := by rw [maxLen]; omega
    exact decodeSegwit_of_splitText_error ((if_neg hmax).trans (if_pos hshort)) hs expected

end Sys2Proof
end

section
/-! The causes of a legal command's error (60_exceptions.md R262), and what the error latch drops and keeps (R266 to R269). -/

namespace Sys2Proof

/-- A command's word names the command (30_encoding.md R71, R74). -/
theorem encode_inj {i j : Instr} (hi : i.wellFormed = true) (hj : j.wellFormed = true) (h : encode i = encode j) : i = j :=
  Decoded.command.inj ((decode_encode hi).symm.trans ((congrArg decode h).trans (decode_encode hj)))

/-- The errors whose record a legal command's word can be (60_exceptions.md R261): INVALID_VALUE with CV_PUSH, INVALID_PADDING with
CV_FLUSH NOPAD. -/
theorem errorRecord_encode {e : Machine.EngineError} {i : Instr} (hi : i.wellFormed = true)
    (h : Machine.errorRecord e.code (encode i) = true) :
    (e = .invalidValue ∧ ∃ v, i = .cvPush v) ∨ (e = .invalidPadding ∧ i = .cvFlush false) := by
  cases e with
  | illegalCmd => simp [Machine.errorRecord, Machine.EngineError.code, decode_encode hi, Decoded.instr?] at h
  | invalidValue =>
    have hrow : encode i &&& 0xFF00 = cmdWord 0x8 0 0 := eq_of_beq h
    exact .inl ⟨rfl, _, encode_inj hi (j := .cvPush _) rfl (cmdWord_of_byteRow 0x8 hrow).symm⟩
  | invalidPadding => exact .inr ⟨rfl, encode_inj hi (j := .cvFlush false) rfl (eq_of_beq h)⟩

end Sys2Proof

namespace Sys2Proof.Machine

variable {s t : State} {i : Instr}

/-! ### The causes of an error -/

/-- A command that writes no ERRL leaves it, whether it completes or waits. -/
theorem State.errl_of_commit {ws : List RspWord} {f : State → State} (h : s.commit ws f = .next t)
    (hf : (f s).errl = s.errl) : t.errl = s.errl := by
  obtain ⟨-, rfl⟩ | ⟨-, rfl⟩ := State.commit_next h
  · exact hf
  · rfl

/-- CV_PUSH raises no error for a value of FROM bits (41_bitconv.md R102). -/
theorem exec_cvPush_errl_clear (he : s.errl = false) {v : Byte} (hv : ¬ 2 ^ s.fromW ≤ v.toNat)
    (h : exec (.cvPush v) s = .next t) : t.errl = false := by
  rw [exec, execCvPush_eq, State.unlessLatched_clear he, if_neg hv] at h
  exact (State.errl_of_commit h rfl).trans he

/-- CV_FLUSH NOPAD raises no error when the bits left over are fewer than FROM and all zero (41_bitconv.md R104). -/
theorem exec_cvFlushNoPad_errl_clear (he : s.errl = false)
    (hrest : ¬ (s.fromW ≤ s.cnt.toNat ∨ residue s.toW s.acc.toNat s.cnt.toNat ≠ 0))
    (h : exec (.cvFlush false) s = .next t) : t.errl = false := by
  have hend : convertEnd s.fromW s.toW false s.acc.toNat s.cnt.toNat = .ok [] :=
    (if_neg Bool.false_ne_true).trans (if_neg hrest)
  cases (exec_cvFlush_of_ok he hend (.inl rfl)).symm.trans h
  exact he

/-- A legal command that sets the latch has done nothing but enter its error: only the error's own outcome sets ERRL. -/
theorem Effect.eq_raise (h : Effect s i t) (he : s.errl = false) (ht : t.errl = true) :
    ∃ e : EngineError, errorRecord e.code (encode i) = true ∧ t = s.raise e (encode i) := by
  cases h with
  | raise e _ hrec => exact ⟨e, hrec, rfl⟩
  | wait => exact absurd (he.symm.trans ht) Bool.false_ne_true
  | drop hset => exact absurd (he.symm.trans hset) Bool.false_ne_true
  | run ws u _ hw => exact absurd ((hw.errl_clear he).symm.trans ht) Bool.false_ne_true

/-! ### The latch -/

/-- The commands of R266 that execute while ERRL = 1. -/
theorem runsWhileLatched_iff (i : Instr) :
    runsWhileLatched i = true ↔ i = .nop ∨ (∃ r, i = .rd r) ∨ i = .clrerr ∨ i = .srst := by
  cases i <;> simp [runsWhileLatched]

theorem State.feed_of_latched (he : s.errl = true) (v : Sym) : s.feed v = .next s.retire :=
  State.unlessLatched_set he _

/-- Every other command is dropped. -/
theorem exec_eq_retire_of_latched (he : s.errl = true) (hi : runsWhileLatched i = false) : exec i s = .next s.retire := by
  unfold exec
  cases i with
  | nop | rd | clrerr | srst => cases hi
  | pmSym | pmHrph | pmHrpl => exact State.feed_of_latched he _
  | _ => exact State.unlessLatched_set he _

/-- STATUS, ECMD and the registers of the PME and the BCU are the same in `s` and `t`. -/
abbrev RegistersKept (s t : State) : Prop :=
  t.status = s.status ∧ t.ecmd = s.ecmd ∧ t.chk = s.chk ∧ t.acc = s.acc ∧ t.cnt = s.cnt ∧ t.cfg = s.cfg

theorem State.retire_registersKept (s : State) : RegistersKept s s.retire := ⟨rfl, rfl, rfl, rfl, rfl, rfl⟩

theorem State.hostPop_registersKept (s : State) : RegistersKept s s.hostPop := by
  rw [s.hostPop_frame]
  exact ⟨rfl, rfl, rfl, rfl, rfl, rfl⟩

theorem exec_rd_registersKept {r : RdReg} (h : exec (.rd r) s = .next t) : RegistersKept s t := by
  obtain ⟨-, rfl⟩ | ⟨-, rfl⟩ := State.commit_next h <;> exact ⟨rfl, rfl, rfl, rfl, rfl, rfl⟩

/-- While ERRL = 1 a command keeps every register, or it is one of the two that end the error (R268). -/
theorem exec_keepsRegisters_or_endsError (he : s.errl = true) (h : exec i s = .next t) :
    RegistersKept s t ∨ i = .clrerr ∨ i = .srst := by
  cases hi : runsWhileLatched i with
  | false =>
    cases (exec_eq_retire_of_latched he hi).symm.trans h
    exact .inl s.retire_registersKept
  | true =>
    obtain rfl | ⟨r, rfl⟩ | hends := (runsWhileLatched_iff i).1 hi
    · cases (exec_nop s).symm.trans h
      exact .inl s.retire_registersKept
    · exact .inl (exec_rd_registersKept h)
    · exact .inr hends

theorem engineTurn_of_nil (hc : s.cmds = []) : engineTurn s = .next s := by
  simp only [engineTurn, hc]

/-- While ERRL = 1 the engine's turn keeps every register, or its command is CLRERR or SRST, by its word. -/
theorem engineTurn_keepsRegisters_or_endsError (he : s.errl = true) (h : engineTurn s = .next t) :
    RegistersKept s t ∨ s.cmds.head? = some (encode .clrerr) ∨ s.cmds.head? = some (encode .srst) := by
  cases hc : s.cmds with
  | nil =>
    cases (engineTurn_of_nil hc).symm.trans h
    exact .inl ⟨rfl, rfl, rfl, rfl, rfl, rfl⟩
  | cons w rest =>
    rw [engineTurn_of_cons hc] at h
    cases hd : decode w with
    | illegal why =>
      cases (runWord_of_illegal_latched hd he).symm.trans h
      exact .inl s.retire_registersKept
    | command i =>
      rw [runWord_of_command hd] at h
      obtain ⟨-, hword, -⟩ := reading_of_decode hd
      rw [List.head?_cons, ← hword]
      exact (exec_keepsRegisters_or_endsError he h).imp_right (Or.imp (congrArg (some <| encode ·)) (congrArg (some <| encode ·)))

/-- With nothing on the agenda it is the engine's turn (00_scope.md R14). -/
theorem step_of_agenda_nil (h : s.agenda = []) : step s = engineTurn s := by
  simp only [step, nextTurn, h]

end Sys2Proof.Machine
end

section
namespace Sys2Proof

open Sys2Proof.Machine

/-- Settles O43: the four commands excluded are those that the latch does not drop. -/
theorem latchedCommandsAreDropped : Obligations.LatchedCommandsAreDropped := by
  intro s i he hnop hrd hclrerr hsrst
  have hdropped : runsWhileLatched i = false := by
    rw [← Bool.not_eq_true, runsWhileLatched_iff]
    rintro (h | ⟨r, h⟩ | h | h)
    exacts [hnop h, hrd r h, hclrerr h, hsrst h]
  exact exec_eq_retire_of_latched he hdropped

/-- Settles O46: the command has entered an error whose record its own word is, so it is CV_PUSH or CV_FLUSH NOPAD, and each of these
leaves the latch clear unless its own condition holds. -/
theorem legalCommandsHaveTwoErrorCauses : Obligations.LegalCommandsHaveTwoErrorCauses := by
  intro s t i hi he h ht
  obtain ⟨e, hrec, rfl⟩ := (exec_effect h).eq_raise he ht
  obtain ⟨-, hecode, hvok, hres⟩ := s.raise_flags e (encode i)
  refine ⟨?_, hvok, hres, s.raise_frame e (encode i)⟩
  obtain ⟨rfl, v, rfl⟩ | ⟨rfl, rfl⟩ := errorRecord_encode hi hrec
  · refine .inl ⟨v, rfl, ?_, hecode⟩
    by_contra hnarrow
    exact Bool.false_ne_true ((exec_cvPush_errl_clear he hnarrow h).symm.trans ht)
  · refine .inr ⟨rfl, ?_, hecode⟩
    by_contra hrest
    exact Bool.false_ne_true ((exec_cvFlushNoPad_errl_clear he hrest h).symm.trans ht)

/-- Settles O47, turn by turn: the engine's turn keeps the registers or ends the error, and of the host's turns only a reset writes one. -/
theorem latchHoldsTheFirstError : Obligations.LatchHoldsTheFirstError := by
  intro s t he h
  have hengine (hdue : s.agenda = [] ∨ ∃ ts, s.agenda = .engine :: ts) : RegistersKept s t ∨
      (s.cmds.head? = some (encode .clrerr) ∨ s.cmds.head? = some (encode .srst)) :=
    engineTurn_keepsRegisters_or_endsError (s := { s with agenda := s.agenda.tail }) he ((step_of_engine_due hdue).symm.trans h)
  cases ha : s.agenda with
  | nil => exact (hengine (.inl ha)).imp_right fun hends => .inr ⟨.inl rfl, hends⟩
  | cons turn ts =>
    rw [step_of_agenda_cons ha] at h
    cases turn with
    | engine => exact (hengine (.inr ⟨ts, ha⟩)).imp_right fun hends => .inr ⟨.inr ⟨ts, rfl⟩, hends⟩
    | writeCmd w => cases h; exact .inl ⟨rfl, rfl, rfl, rfl, rfl, rfl⟩
    | popRsp => cases h; exact .inl (State.hostPop_registersKept _)
    | reset => exact .inr (.inl ⟨ts, rfl⟩)

/-- Settles O10: the due turn is the engine's, which finds no command. -/
theorem idleEngineHoldsItsState : Obligations.IdleEngineHoldsItsState := by
  intro s hc
  exact ⟨fun ha => (step_of_agenda_nil ha).trans (engineTurn_of_nil hc),
    fun ts ha => (step_of_agenda_cons ha).trans (engineTurn_of_nil (s := { s with agenda := ts }) hc)⟩

end Sys2Proof
end

section
/-! A waiting command completes once RSPQ is empty (20_memory.md R59, 70_reset_and_hazards.md R297). -/

namespace Sys2Proof.Machine

/-- A run of `m` steps that answers a next state goes on from that state. -/
theorem run_add {m : Nat} {s t : State} (h : core.run m s = .next t) (n : Nat) : core.run (m + n) s = core.run n t := by
  have key (M : Host.Core) (m : Nat) (s t : M.State) (h : M.run m s = .next t) : M.run (m + n) s = M.run n t := by
    induction m generalizing s with
    | zero => cases h; rw [Nat.zero_add]
    | succ m ih =>
      rw [Nat.succ_add]
      cases hs : M.step s with
      | next u =>
        simp only [Host.Core.run, hs] at h ⊢
        exact ih u h
      | fault f => simp [Host.Core.run, hs] at h
      | refused r => simp [Host.Core.run, hs] at h
  exact key core m s t h

/-- A word completes once its words fit: a legal one by its row of R79, an illegal one at once (30_encoding.md R76, R77). -/
theorem runWord_completes_of_fits {s : State} (hs : s.BcuInRange) {w : CmdWord} (hfit : s.Fits (s.pushCount w)) :
    ∃ t, runWord w s = .next t ∧ t.cmds = s.cmds.tail := by
  cases hd : decode w with
  | command i =>
    obtain ⟨hi, rfl, -⟩ := reading_of_decode hd
    obtain ⟨t, ht, hc, -⟩ := (commandRunsExactlyWhenItsWordsFit s i hi hs).2 hfit
    exact ⟨t, (runWord_of_command hd s).trans ht, hc⟩
  | illegal why =>
    rw [runWord_of_illegal hd]
    obtain ⟨-, h⟩ | ⟨-, h⟩ := execIllegal_cases w s <;> exact ⟨_, h, rfl⟩

/-- No push count is above 8, the least capacity of RSPQ (00_scope.md R8), so an empty RSPQ has room for every word's pushes. -/
theorem State.fits_pushCount_of_rspq_nil {s : State} (hs : s.BcuInRange) (hd : Config.rspDepthMin ≤ s.rspDepth)
    (hq : s.rspq = []) (w : CmdWord) : s.Fits (s.pushCount w) := by
  have hk : s.pushCount w ≤ Config.rspDepthMin := (pushCountIsAtMostEight.1 s w hs).1
  refine .inr ?_
  rw [hq, List.length_nil, Nat.zero_add]
  exact hk.trans hd

/-- The state once the host has popped every word of RSPQ, with nothing left on the agenda. -/
def State.drained (s : State) : State := { s with rspq := [], popped := s.popped ++ s.rspq, agenda := [] }

/-- As many pop turns as RSPQ holds words drain it (20_memory.md R60). -/
theorem run_pops_drains {s : State} (ha : s.agenda = List.replicate s.rspq.length .popRsp) :
    core.run s.rspq.length s = .next s.drained := by
  have h := run_pops s.rspq.length s
  rwa [← ha, s.popMany_all] at h

end Sys2Proof.Machine
end

section
namespace Sys2Proof

open Sys2Proof.Machine

/-- Settles O52: the pops empty RSPQ, which then has room for the oldest word, and the step after them is the engine's turn on it. -/
theorem waitingCommandCompletesAfterPops : Obligations.WaitingCommandCompletesAfterPops := by
  rintro s w rest ⟨hbcu, ⟨hdepth, -⟩, -⟩ hc ha
  have hrange : s.drained.BcuInRange := hbcu
  have hpending : s.drained.cmds = w :: rest := hc
  have hfit := State.fits_pushCount_of_rspq_nil hrange hdepth rfl w
  obtain ⟨t, ht, htc⟩ := runWord_completes_of_fits hrange hfit
  have hstep : step s.drained = .next t := (step_of_agenda_nil rfl).trans ((engineTurn_of_cons hpending).trans ht)
  exact ⟨t, (run_add (run_pops_drains ha) 1).trans (run_succ 0 hstep), htc.trans (congrArg List.tail hpending)⟩

end Sys2Proof
end
